-- ==== Sys2Proof/Word.lean ====
section
/-! DEFINITION. The word types of the block (00_scope.md R11): the 32-bit bus and command word, the
256-bit field register, the 12-bit window offset, and the index of a field register. -/

namespace Sys2Proof

/-- A 32-bit word: a command word, or the data of a bus transaction (R11, R120). -/
abbrev Word := BitVec 32

/-- The raw content of a field register, any value in [0, 2²⁵⁶) (R36, R37). -/
abbrev FieldWord := BitVec 256

/-- A byte offset inside the register window (R80): the port `addr` is 12 bits wide (R31). -/
abbrev Offset := BitVec 12

/-- The index of a field register, 0 to 31 (R36). -/
abbrev RegIdx := Fin 32

end Sys2Proof
end

