-- ==== Sys2Proof/Config.lean ====
section
/-! DEFINITION. What the spec leaves open and the model does not fix: the free value of a host read
of a field register while the block is busy (20_memory.md R89, 93_implementation_defined.md U1). -/

namespace Sys2Proof

/-- The value of the `n`-th host read of a field register made while BUSY = 1.
R89: such a read "returns an unspecified 32-bit value; a model treats it as a free draw".
It has no body, so nothing is known about it (log entry 1). -/
opaque Config.freeRead : Nat → Word

end Sys2Proof
end

