-- ==== Sys2Proof/Machine/Field.lean ====
section
/-! DEFINITION. Arithmetic modulo p and modulo ℓ (00_scope.md R9, R10, R17, R18), and the constant
table (10_state.md R42). Values are exact integers, brought into [0, p) by `mod p`. -/

namespace Sys2Proof.Machine

/-- R9: p = 2²⁵⁵ − 19. -/
def fieldPrime : Nat := 2 ^ 255 - 19

/-- R10: ℓ = 2²⁵² + 27742317777372353535851937790883648493. -/
def scalarOrder : Nat := 2 ^ 252 + 27742317777372353535851937790883648493

/-- R17: `a mod p`, the remainder in [0, p) of any integer `a`, negative or not. -/
def modP (a : Int) : Nat := (a % (fieldPrime : Int)).toNat

/-- R153: `(x + y) mod p`. -/
def addP (x y : Nat) : Nat := modP ((x : Int) + y)

/-- R154: `(x - y) mod p`, "adding p exactly once" when x < y. -/
def subP (x y : Nat) : Nat := modP ((x : Int) - y)

/-- R155: `(0 - x) mod p`. -/
def negP (x : Nat) : Nat := modP (0 - (x : Int))

/-- R156: `(x * y) mod p`, the exact product reduced (R162). -/
def mulP (x y : Nat) : Nat := modP ((x : Int) * y)

/-- R157: `(x * x) mod p`. -/
def sqrP (x : Nat) : Nat := mulP x x

/-- `x ^ e mod m` by squaring, for an exponent of at most `bits` bits. -/
def powMod (m : Nat) : Nat → Nat → Nat → Nat
  | 0, _, _ => 1 % m
  | bits + 1, x, e =>
    let rest := powMod m bits (x * x % m) (e / 2)
    if e % 2 = 1 then x * rest % m else rest

/-- `x ^ e mod p` for e < 2²⁵⁶. -/
def powP (x e : Nat) : Nat := powMod fieldPrime 256 x e

/-- R221: `x^(p-2) mod p`, which is x⁻¹ for x ≠ 0 and 0 for x = 0. -/
def invP (x : Nat) : Nat := powP x (fieldPrime - 2)

/-- R223: `repeat k times: x <- (x * x) mod p`. -/
def pow2P : Nat → Nat → Nat
  | 0, x => x
  | k + 1, x => pow2P k (sqrP x)

/-- R224: the pair `(x^((p-5)/8) mod p, x^3 mod p)`; the second is x³, not x² (90_conflicts.md C1). -/
def chainP (x : Nat) : Nat × Nat := (powP x ((fieldPrime - 5) / 8), powP x 3)

/-- R42, index 2: D = −121665/121666 mod p. -/
def curveD : Nat := 0x52036cee2b6ffe738cc740797779e89800700a4d4141d8ab75eb4dca135978a3

/-- R42, index 3: the square root 2^((p−1)/4) of −1. -/
def sqrtM1 : Nat := 0x2b8324804fc1df0b2b4d00993dfbd7a72f431806ad2fe478c4ee1b274a0ea0b0

/-- R42: the constant table, ZERO ONE D SQRTM1 GX GY A24 MINUS_ONE L H; `none` past index 9. -/
def constTable (c : Nat) : Option FieldWord :=
  [ 0,
    1,
    BitVec.ofNat 256 curveD,
    BitVec.ofNat 256 sqrtM1,
    0x216936d3cd6e53fec0a4e231fdd6dc5c692cc7609525a7b2c9562d608f25d51a,
    0x6666666666666666666666666666666666666666666666666666666666666658,
    121665,
    0x7fffffffffffffffffffffffffffffffffffffffffffffffffffffffffffffec,
    0x1000000000000000000000000000000014def9dea2f79cd65812631a5cf5d3ed,
    8 ][c]?

end Sys2Proof.Machine
end

