-- ==== Sys2Proof/Syntax.lean ====
section
/-! DEFINITION. The commands of the block, one constructor per row of spec/opcode_table.json
(30_encoding.md R125). A register field is held as the index the word holds: a point register pN
is the index 4·N (R123). Which indices a command admits is said by WellFormed. -/

namespace Sys2Proof

/-- A command. Operands stand in the order RD, RA, RB, IMM of the fields its format uses (R122). -/
inductive Instr where
  -- montgomery_mult (40_montgomery_mult.md)
  | nop
  | fadd (d a b : RegIdx)
  | fsub (d a b : RegIdx)
  | fneg (d a : RegIdx)
  | fmul (d a b : RegIdx)
  | fsqr (d a : RegIdx)
  | fmov (d a : RegIdx)
  | fconst (d : RegIdx) (c : BitVec 11)
  | feq (a b : RegIdx)
  -- modular_reducer (41_modular_reducer.md)
  | fred (d a : RegIdx)
  | redp (d a : RegIdx)
  | redl (d a : RegIdx)
  -- modular_inverter (42_modular_inverter.md)
  | finv (d a : RegIdx)
  | fpow2 (d a : RegIdx) (k : BitVec 11)
  | pow22523 (d a : RegIdx)
  -- field_sqrt_mod_p (43_field_sqrt.md)
  | sqrtratio (d a b : RegIdx)
  | decomp (d a : RegIdx)
  | pcomp (d a : RegIdx)
  -- edwards_point_adder (44_edwards_point.md)
  | pext (d a : RegIdx)
  | paff (d a : RegIdx)
  | padd (d a b : RegIdx)
  | psub (d a b : RegIdx)
  | pdbl (d a : RegIdx)
  | pneg (d a : RegIdx)
  | peq (a b : RegIdx)
  deriving DecidableEq, Repr

end Sys2Proof
end

