-- ==== Sys2Proof/WellFormed.lean ====
section
/-! DEFINITION. Which operand values a command admits (30_encoding.md R123, R129 to R131): a point
index is a multiple of 4, a pair index is not 31, a constant index is at most 9. -/

namespace Sys2Proof

/-- R123, R129: a point index is one of 0, 4, ..., 28. -/
abbrev PointIdx (r : RegIdx) : Prop := r.val % 4 = 0

/-- R123, R130: a pair index is one of 0 to 30, for F[32] does not exist. -/
abbrev PairIdx (r : RegIdx) : Prop := r.val ≠ 31

/-- R131: a constant index is one of 0 to 9. -/
abbrev ConstIdx (c : BitVec 11) : Prop := c.toNat ≤ 9

/-- The operand kinds of each command (R125), as a check on its indices. -/
def wellFormed : Instr → Bool
  | .nop => true
  | .fadd _ _ _ => true
  | .fsub _ _ _ => true
  | .fneg _ _ => true
  | .fmul _ _ _ => true
  | .fsqr _ _ => true
  | .fmov _ _ => true
  | .fconst _ c => decide (ConstIdx c)
  | .feq _ _ => true
  | .fred _ _ => true
  | .redp _ a => decide (PairIdx a)
  | .redl _ a => decide (PairIdx a)
  | .finv _ _ => true
  | .fpow2 _ _ _ => true
  | .pow22523 d _ => decide (PairIdx d)
  | .sqrtratio _ _ _ => true
  | .decomp d _ => decide (PointIdx d)
  | .pcomp _ a => decide (PointIdx a)
  | .pext d a => decide (PointIdx d ∧ PairIdx a)
  | .paff d a => decide (PointIdx d ∧ PointIdx a)
  | .padd d a b => decide (PointIdx d ∧ PointIdx a ∧ PointIdx b)
  | .psub d a b => decide (PointIdx d ∧ PointIdx a ∧ PointIdx b)
  | .pdbl d a => decide (PointIdx d ∧ PointIdx a)
  | .pneg d a => decide (PointIdx d ∧ PointIdx a)
  | .peq a b => decide (PointIdx a ∧ PointIdx b)

/-- The command names only operands that its kinds admit. -/
abbrev WellFormed (i : Instr) : Prop := wellFormed i = true

end Sys2Proof
end

