-- ==== Sys2Proof/Decode.lean ====
section
/-! DEFINITION. Decoding a command word (30_encoding.md R120 to R133), total on every 32-bit word,
and encoding a command as its one word (R121, R128). -/

namespace Sys2Proof

/-! ### The fields of a word (R121) -/

def opField (w : Word) : BitVec 6 := w.extractLsb' 0 6
def rdField (w : Word) : RegIdx := (w.extractLsb' 6 5).toFin
def raField (w : Word) : RegIdx := (w.extractLsb' 11 5).toFin
def rbField (w : Word) : RegIdx := (w.extractLsb' 16 5).toFin
/-- R124: IMM is unsigned, never sign-extended, scaled or shifted. -/
def immField (w : Word) : BitVec 11 := w.extractLsb' 21 11

/-- R121: `w = IMM·2²¹ + RB·2¹⁶ + RA·2¹¹ + RD·2⁶ + OP`. -/
def commandWord (op : BitVec 6) (rd ra rb : RegIdx) (imm : BitVec 11) : Word :=
  BitVec.ofNat 32
    (imm.toNat * 2 ^ 21 + rb.val * 2 ^ 16 + ra.val * 2 ^ 11 + rd.val * 2 ^ 6 + op.toNat)

/-! ### The opcode map (R125) -/

/-- The use a command makes of a register field: none, or one of the three operand kinds (R123). -/
inductive Kind where
  | unused
  | f
  | w
  | p
  deriving DecidableEq, Repr

/-- R126: the value of a register field passes the checks of its kind (R128, R129, R130). -/
def Kind.accepts (k : Kind) (r : RegIdx) : Bool :=
  match k with
  | .unused => r.val == 0
  | .f => true
  | .w => r.val != 31
  | .p => r.val % 4 == 0

/-- The use a command makes of IMM: none, a constant index (FCONST) or a count (FPOW2). -/
inductive ImmKind where
  | unused
  | const
  | count
  deriving DecidableEq, Repr

/-- R126: the value of IMM passes the check of its use (R128, R131). -/
def ImmKind.accepts (k : ImmKind) (c : BitVec 11) : Bool :=
  match k with
  | .unused => c.toNat == 0
  | .const => decide (c.toNat ≤ 9)
  | .count => true

/-- One row of the opcode map. -/
structure Row where
  op : BitVec 6
  mnemonic : String
  rd : Kind
  ra : Kind
  rb : Kind
  imm : ImmKind
  make : RegIdx → RegIdx → RegIdx → BitVec 11 → Instr

/-- OP 0x00 to 0x08. -/
def montgomeryMultRows : List Row :=
  [ ⟨0x00, "NOP", .unused, .unused, .unused, .unused, fun _ _ _ _ => .nop⟩,
    ⟨0x01, "FADD", .f, .f, .f, .unused, fun d a b _ => .fadd d a b⟩,
    ⟨0x02, "FSUB", .f, .f, .f, .unused, fun d a b _ => .fsub d a b⟩,
    ⟨0x03, "FNEG", .f, .f, .unused, .unused, fun d a _ _ => .fneg d a⟩,
    ⟨0x04, "FMUL", .f, .f, .f, .unused, fun d a b _ => .fmul d a b⟩,
    ⟨0x05, "FSQR", .f, .f, .unused, .unused, fun d a _ _ => .fsqr d a⟩,
    ⟨0x06, "FMOV", .f, .f, .unused, .unused, fun d a _ _ => .fmov d a⟩,
    ⟨0x07, "FCONST", .f, .unused, .unused, .const, fun d _ _ c => .fconst d c⟩,
    ⟨0x08, "FEQ", .unused, .f, .f, .unused, fun _ a b _ => .feq a b⟩ ]

/-- OP 0x10 to 0x12. -/
def modularReducerRows : List Row :=
  [ ⟨0x10, "FRED", .f, .f, .unused, .unused, fun d a _ _ => .fred d a⟩,
    ⟨0x11, "REDP", .f, .w, .unused, .unused, fun d a _ _ => .redp d a⟩,
    ⟨0x12, "REDL", .f, .w, .unused, .unused, fun d a _ _ => .redl d a⟩ ]

/-- OP 0x18 to 0x1A. -/
def modularInverterRows : List Row :=
  [ ⟨0x18, "FINV", .f, .f, .unused, .unused, fun d a _ _ => .finv d a⟩,
    ⟨0x19, "FPOW2", .f, .f, .unused, .count, fun d a _ k => .fpow2 d a k⟩,
    ⟨0x1A, "POW22523", .w, .f, .unused, .unused, fun d a _ _ => .pow22523 d a⟩ ]

/-- OP 0x20 to 0x22. -/
def fieldSqrtRows : List Row :=
  [ ⟨0x20, "SQRTRATIO", .f, .f, .f, .unused, fun d a b _ => .sqrtratio d a b⟩,
    ⟨0x21, "DECOMP", .p, .f, .unused, .unused, fun d a _ _ => .decomp d a⟩,
    ⟨0x22, "PCOMP", .f, .p, .unused, .unused, fun d a _ _ => .pcomp d a⟩ ]

/-- OP 0x28 to 0x2E. -/
def edwardsPointRows : List Row :=
  [ ⟨0x28, "PEXT", .p, .w, .unused, .unused, fun d a _ _ => .pext d a⟩,
    ⟨0x29, "PAFF", .p, .p, .unused, .unused, fun d a _ _ => .paff d a⟩,
    ⟨0x2A, "PADD", .p, .p, .p, .unused, fun d a b _ => .padd d a b⟩,
    ⟨0x2B, "PSUB", .p, .p, .p, .unused, fun d a b _ => .psub d a b⟩,
    ⟨0x2C, "PDBL", .p, .p, .unused, .unused, fun d a _ _ => .pdbl d a⟩,
    ⟨0x2D, "PNEG", .p, .p, .unused, .unused, fun d a _ _ => .pneg d a⟩,
    ⟨0x2E, "PEQ", .unused, .p, .p, .unused, fun _ a b _ => .peq a b⟩ ]

/-- The opcode map: 25 rows; the other 39 values of OP are reserved (R127, R133). -/
def opcodeMap : List Row :=
  montgomeryMultRows ++ modularReducerRows ++ modularInverterRows ++ fieldSqrtRows ++
    edwardsPointRows

/-- The row of an OP value, if the map has one. -/
def findRow (op : BitVec 6) : Option Row := opcodeMap.find? (fun r => r.op == op)

/-! ### Decoding (R126) -/

/-- The two errors of decoding (R127; R128 to R131). -/
inductive DecodeError where
  | illegalOpcode
  | illegalOperand
  deriving DecidableEq, Repr

/-- Every field of the word passes the checks of the row (R126). -/
def Row.accepts (r : Row) (w : Word) : Bool :=
  r.rd.accepts (rdField w) && r.ra.accepts (raField w) && r.rb.accepts (rbField w) &&
    r.imm.accepts (immField w)

/-- The command a row makes of a word's fields. -/
def Row.instr (r : Row) (w : Word) : Instr :=
  r.make (rdField w) (raField w) (rbField w) (immField w)

/-- R126: a reserved OP is an illegal opcode; then a field that fails its check is an illegal
operand; every other word is a command. -/
def decode (w : Word) : Except DecodeError Instr :=
  match findRow (opField w) with
  | none => .error .illegalOpcode
  | some r => if r.accepts w then .ok (r.instr w) else .error .illegalOperand

/-- The instruction the decoder reads from the `nbits` bits of `w` (a command is one 32-bit word,
R120, so bit numbers of the table are the word's own, and bits above `nbits` are 0). -/
def decodeTableWord (nbits w : Nat) : Option Instr :=
  match decode (BitVec.ofNat 32 (w % 2 ^ nbits)) with
  | .ok i => some i
  | .error _ => none

/-! ### Encoding (R121, R125) -/

/-- The word of a command; a field its format does not use is 0 (R122, R128). -/
def encode : Instr → Word
  | .nop => commandWord 0x00 0 0 0 0
  | .fadd d a b => commandWord 0x01 d a b 0
  | .fsub d a b => commandWord 0x02 d a b 0
  | .fneg d a => commandWord 0x03 d a 0 0
  | .fmul d a b => commandWord 0x04 d a b 0
  | .fsqr d a => commandWord 0x05 d a 0 0
  | .fmov d a => commandWord 0x06 d a 0 0
  | .fconst d c => commandWord 0x07 d 0 0 c
  | .feq a b => commandWord 0x08 0 a b 0
  | .fred d a => commandWord 0x10 d a 0 0
  | .redp d a => commandWord 0x11 d a 0 0
  | .redl d a => commandWord 0x12 d a 0 0
  | .finv d a => commandWord 0x18 d a 0 0
  | .fpow2 d a k => commandWord 0x19 d a 0 k
  | .pow22523 d a => commandWord 0x1A d a 0 0
  | .sqrtratio d a b => commandWord 0x20 d a b 0
  | .decomp d a => commandWord 0x21 d a 0 0
  | .pcomp d a => commandWord 0x22 d a 0 0
  | .pext d a => commandWord 0x28 d a 0 0
  | .paff d a => commandWord 0x29 d a 0 0
  | .padd d a b => commandWord 0x2A d a b 0
  | .psub d a b => commandWord 0x2B d a b 0
  | .pdbl d a => commandWord 0x2C d a 0 0
  | .pneg d a => commandWord 0x2D d a 0 0
  | .peq a b => commandWord 0x2E 0 a b 0

end Sys2Proof
end

