-- ==== Sys2Proof/Machine/State.lean ====
section
/-! DEFINITION. The state of the block (10_state.md R59), the inputs its environment gives it, its
values after reset (70_reset_and_hazards.md R351), and the reasons a step can stop. -/

namespace Sys2Proof.Machine

/-- Why the machine stops with a fault: never. R310: "An error never stops the core"; every error of
the spec is recorded in STATUS, ERRCODE and ERRINFO and the machine goes on. So the type is empty. -/
inductive Fault where
  deriving DecidableEq, Repr

/-- Why a step is refused. -/
inductive Refusal where
  /-- Raised by no arm of `exec`: every command of the opcode table has its meaning.
  Safe: a refusal proves nothing about the hardware. -/
  | notModelled (mnemonic : String)
  /-- Raised by the step when the next input is `Event.unstable`: the host changed `we`, `addr` or
  `wdata` during a transaction, and R32 leaves the effect unspecified (93_implementation_defined.md
  U2: refuse; log entry 7). Safe: the hardware does something, the model says nothing about it. -/
  | unstableTransaction
  deriving DecidableEq, Repr

/-- A bus transaction of the host, one atomic step (R33): it moves 32 bits at a byte offset of the
register window. -/
inductive Transaction where
  /-- `Write(off, data)` (R86). -/
  | write (off : Offset) (data : Word)
  /-- `Read(off) -> data` (R85). -/
  | read (off : Offset)
  deriving DecidableEq, Repr

/-- What happens at the block next. R94: host transactions take effect one at a time in the host's
order, and a completion step of the core takes effect between two of them, never inside one. -/
inductive Event where
  /-- The host's transaction. -/
  | host (t : Transaction)
  /-- The core's turn: it completes the command in flight, if there is one (R56). -/
  | completion
  /-- A rising edge of `clk` with `rst_n` = 0 (R350). -/
  | reset
  /-- A transaction whose `we`, `addr` or `wdata` the host changed before `ack` (R32). -/
  | unstable
  deriving DecidableEq, Repr

/-- The state. The first twelve fields are the block's architectural state, all of R59. The last
three are the model's own (log entries 1 to 3): what the environment does next, the data port of
the bus, and the count of free values drawn. -/
structure State where
  /-- F[0] to F[31], raw 256-bit values (R36, R37). -/
  f : Vector FieldWord 32
  /-- CTRL[0], the enable of the DONE interrupt (R47). -/
  ieDone : Bool
  /-- CTRL[1], the enable of the ERR interrupt (R47). -/
  ieErr : Bool
  /-- STATUS[0] (R53). -/
  busy : Bool
  /-- STATUS[1] (R54). -/
  done : Bool
  /-- STATUS[2] (R55). -/
  err : Bool
  /-- STATUS[3], the one flag (R52). -/
  eq : Bool
  /-- ERRCODE[3:0], CODE (R50). -/
  errCode : BitVec 4
  /-- ERRCODE[8], SRC (R50). -/
  errSrc : Bool
  /-- ERRINFO (R51). -/
  errInfo : Word
  /-- LASTCMD, read at CMD (R49). -/
  lastCmd : Word
  /-- The command word accepted and not yet completed, or empty (R56). -/
  inFlight : Option Word
  /-- The model's own: the inputs still to come, the next one first. -/
  events : List Event
  /-- The model's own: the port `rdata` (R31), which holds a value only when the latest step was a
  read (R32: valid in the cycle `ack` = 1 of a read). -/
  rdata : Option Word
  /-- The model's own: how many free values have been drawn (R89). -/
  draws : Nat
  deriving DecidableEq, Repr

/-- R351: every state element of R59 after reset, where every run starts (log entry 8). Nothing is about to happen, no read has been
answered and no free value drawn (log entries 1 to 3). -/
def State.reset : State where
  f := Vector.replicate 32 0
  ieDone := false
  ieErr := false
  busy := false
  done := false
  err := false
  eq := false
  errCode := 0
  errSrc := false
  errInfo := 0
  lastCmd := 0
  inFlight := none
  events := []
  rdata := none
  draws := 0

end Sys2Proof.Machine
end

