-- ==== Sys2Proof/Machine/Ops.lean ====
section
/-! DEFINITION. The named operations on the state: reading and writing field registers, completing a
command, and recording an error, which is all this block does in place of a trap
(60_exceptions.md R310 to R323). -/

namespace Sys2Proof.Machine

/-! ### Field registers (R16, R36 to R40) -/

/-- `F[r]`, raw. -/
def State.reg (s : State) (r : RegIdx) : FieldWord := s.f[r]

/-- `F[r] <- v`. -/
def State.writeReg (s : State) (r : RegIdx) (v : FieldWord) : State := { s with f := s.f.set r v }

/-- `F[r] <- v` for a number v, as a 256-bit value. -/
def State.writeNat (s : State) (r : RegIdx) (v : Nat) : State := s.writeReg r (BitVec.ofNat 256 v)

/-- `EQ <- b` (R52). -/
def State.writeEq (s : State) (b : Bool) : State := { s with eq := b }

/-! ### Completion and errors -/

/-- The error codes of R50: the CODE field holds one of these. -/
inductive ErrorCode where
  | illegalOpcode
  | illegalOperand
  | busyAccess
  | invalidPoint
  deriving DecidableEq, Repr

/-- R50, R313 to R316: the number of an error. -/
def ErrorCode.code : ErrorCode → BitVec 4
  | .illegalOpcode => 1
  | .illegalOperand => 2
  | .busyAccess => 3
  | .invalidPoint => 4

/-- R311, `RecordError(code, src, info)`: the first error since ERR was last cleared is kept, a later
one changes nothing. -/
def State.recordError (s : State) (e : ErrorCode) (src : Bool) (info : Word) : State :=
  if s.err then s
  else { s with err := true, errCode := e.code, errSrc := src, errInfo := info }

/-- R56: `BUSY <- 0; DONE <- 1; InFlight <- empty`. -/
def State.complete (s : State) : State := { s with busy := false, done := true, inFlight := none }

/-- The word of the command being completed: InFlight. With no command in flight, which no run of the
step reaches here, LASTCMD stands for it (log entry 4). -/
def State.currentWord (s : State) : Word := s.inFlight.getD s.lastCmd

/-- R312 with R313, R314, R316: a command error. It records the command word with SRC = 0, writes no
register, leaves EQ unchanged, and completes. -/
def State.fail (s : State) (e : ErrorCode) : State :=
  (s.recordError e false s.currentWord).complete

/-- The error a word that does not decode ends with (R313, R314). -/
def State.failDecode (s : State) : DecodeError → State
  | .illegalOpcode => s.fail .illegalOpcode
  | .illegalOperand => s.fail .illegalOperand

/-- R322: the host's acknowledgement of an error clears ERR, ERRCODE and ERRINFO together (R55). -/
def State.clearError (s : State) : State :=
  { s with err := false, errCode := 0, errSrc := false, errInfo := 0 }

/-! ### Reset and acceptance -/

/-- R350, R352: every state element of R59 takes its reset value; a command in flight is forgotten
(R353). The inputs still to come, the data port and the count of free values are not the block's. -/
def State.resetBlock (s : State) : State :=
  { State.reset with events := s.events, rdata := s.rdata, draws := s.draws }

/-- R49: `LASTCMD <- w; BUSY <- 1; DONE <- 0; InFlight <- w`. -/
def State.accept (s : State) (w : Word) : State :=
  { s with lastCmd := w, busy := true, done := false, inFlight := some w }

/-- The step takes the next input off the list; the data port is valid in a read's own step only. -/
def State.advance (s : State) : State := { s with events := s.events.tail, rdata := none }

/-- A command that ends well: `t` with the results written, completed (R56). -/
def finish (t : State) : Host.Outcome State Fault Refusal := .next t.complete

/-- A command that ends with an error (R310: never a stop). -/
def failWith (e : ErrorCode) (s : State) : Host.Outcome State Fault Refusal := .next (s.fail e)

/-- A command that may reject its operands: `t` with the results written, or the error `e`. -/
def finishOr (e : ErrorCode) (s : State) : Option State → Host.Outcome State Fault Refusal
  | some t => finish t
  | none => failWith e s

end Sys2Proof.Machine
end

