-- ==== Sys2Proof/Machine/Operands.lean ====
section
/-! DEFINITION. The operand forms: a field register read as its residue or raw, a pair, a point
(30_encoding.md R123, 40_montgomery_mult.md R150, 41_modular_reducer.md R201, 10_state.md R40). -/

namespace Sys2Proof.Machine

/-- R150: `red(F[a]) = F[a] mod p`, so a raw value in [p, 2²⁵⁶) acts as its residue. -/
def State.red (s : State) (a : RegIdx) : Nat := (s.reg a).toNat % fieldPrime

/-- R201: `wide(a) = F[a] + 2²⁵⁶·F[a+1]`, raw. -/
def State.wide (s : State) (a : RegIdx) : Nat :=
  (s.reg a).toNat + 2 ^ 256 * (s.reg (a + 1)).toNat

/-- An extended point (X, Y, Z, T) of residues (R21, R40). -/
structure Point where
  x : Nat
  y : Nat
  z : Nat
  t : Nat
  deriving DecidableEq, Repr

/-- R40, R270: P[a] = (F[a], F[a+1], F[a+2], F[a+3]), each reduced at entry. -/
def State.point (s : State) (a : RegIdx) : Point :=
  ⟨s.red a, s.red (a + 1), s.red (a + 2), s.red (a + 3)⟩

/-- R16: `P[d] <- (X, Y, Z, T)`. -/
def State.writePoint (s : State) (d : RegIdx) (q : Point) : State :=
  (((s.writeNat d q.x).writeNat (d + 1) q.y).writeNat (d + 2) q.z).writeNat (d + 3) q.t

/-- R224: `F[d] <- v.1; F[d+1] <- v.2`. -/
def State.writePair (s : State) (d : RegIdx) (v : Nat × Nat) : State :=
  (s.writeNat d v.1).writeNat (d + 1) v.2

/-- R129: a field of kind `p` is a multiple of 4. -/
def isPoint (r : RegIdx) : Bool := r.val % 4 == 0

/-- R130: a field of kind `w` is not 31. -/
def isPair (r : RegIdx) : Bool := r.val != 31

/-- The check that R126 makes before a command of operand kinds `w` or `p` executes: where it fails,
the command ends with IllegalOperand (R129 to R131, log entry 10). A decoded command always passes it. -/
def guardOperands (ok : Bool) (s : State) (run : Host.Outcome State Fault Refusal) :
    Host.Outcome State Fault Refusal :=
  if ok then run else failWith .illegalOperand s

end Sys2Proof.Machine
end

