-- ==== Sys2Proof/Machine/FieldSqrt.lean ====
section
/-! DEFINITION. The commands of the field_sqrt_mod_p unit (43_field_sqrt.md). -/

namespace Sys2Proof.Machine

/-- R241: the candidate `x = u·v³·(u·v⁷)^((p-5)/8) mod p`. -/
def sqrtCandidate (u v : Nat) : Nat :=
  mulP (mulP u (powP v 3)) (chainP (mulP u (powP v 7))).1

/-- R241: a square root of the ratio u/v, or none: `x` where v·x² = u, `x·√−1` where v·x² = −u. -/
def sqrtRatio (u v : Nat) : Option Nat :=
  let x := sqrtCandidate u v
  let vx2 := mulP v (sqrP x)
  if vx2 = u then some x
  else if vx2 = negP u then some (mulP x sqrtM1)
  else none

/-- R243: the sign bit of an encoding, `wv[255]`. -/
def signBit (wv : FieldWord) : Bool := wv.getLsbD 255

/-- R243: the y of an encoding, `wv[254:0]`. -/
def encodedY (wv : FieldWord) : Nat := wv.toNat % 2 ^ 255

/-- R271, R243: from_affine, `(x, y, 1, (x*y) mod p)`. -/
def extend (x y : Nat) : Point := ⟨x, y, 1, mulP x y⟩

/-- R243: "Apply the sign", `if x[0] != b: x <- (0 - x) mod p`. -/
def applySign (b : Bool) (x : Nat) : Nat := if (x % 2 == 1) != b then negP x else x

/-- R243: the point an encoding stands for, or none where y ≥ p or there is no square root. -/
def decompress (wv : FieldWord) : Option Point :=
  let y := encodedY wv
  if y ≥ fieldPrime then none
  else
    (sqrtRatio (subP (sqrP y) 1) (addP (mulP curveD (sqrP y)) 1)).map
      (fun x => extend (applySign (signBit wv) x) y)

/-- R245, R272: to_affine, `(X·Z⁻¹, Y·Z⁻¹)`, or none where Z·Z⁻¹ ≠ 1. -/
def toAffine (q : Point) : Option (Nat × Nat) :=
  let zi := invP q.z
  if mulP q.z zi ≠ 1 then none else some (mulP q.x zi, mulP q.y zi)

/-- R245: `y + 2^255 * x[0]`. -/
def compress (x y : Nat) : Nat := y + 2 ^ 255 * (x % 2)

/-- R241: `F[d] <- √(u/v)`, or InvalidPoint. -/
def execSqrtratio (d a b : RegIdx) (s : State) : Host.Outcome State Fault Refusal :=
  finishOr .invalidPoint s ((sqrtRatio (s.red a) (s.red b)).map (s.writeNat d))

/-- R243: `P[d] <-` the point of the encoding F[a], read raw, or InvalidPoint. -/
def execDecomp (d a : RegIdx) (s : State) : Host.Outcome State Fault Refusal :=
  guardOperands (isPoint d) s
    (finishOr .invalidPoint s ((decompress (s.reg a)).map (s.writePoint d)))

/-- R245: `F[d] <-` the encoding of P[a], or InvalidPoint where Z ≡ 0. -/
def execPcomp (d a : RegIdx) (s : State) : Host.Outcome State Fault Refusal :=
  guardOperands (isPoint a) s
    (finishOr .invalidPoint s
      ((toAffine (s.point a)).map (fun q => s.writeNat d (compress q.1 q.2))))

end Sys2Proof.Machine
end

