-- ==== Sys2Proof/Machine/Flags.lean ====
section
/-! DEFINITION. The flag EQ, the words in which software reads the status, and the interrupt
(10_state.md R47 to R52, R57). -/

namespace Sys2Proof.Machine

/-- R160: `EQ <- (x = y) ? 1 : 0` on residues. -/
def eqField (x y : Nat) : Bool := x == y

/-- R278: `(X1*Z2 - X2*Z1) mod p = 0 and (Y1*Z2 - Y2*Z1) mod p = 0`; T is not read. -/
def eqPoint (q r : Point) : Bool :=
  modP ((q.x : Int) * r.z - (r.x : Int) * q.z) == 0 &&
    modP ((q.y : Int) * r.z - (r.y : Int) * q.z) == 0

/-- R47: CTRL as read; SRST and the reserved bits read 0. -/
def State.ctrlWord (s : State) : Word :=
  BitVec.ofNat 32 (s.ieDone.toNat + 2 * s.ieErr.toNat)

/-- R48: STATUS as read, BUSY | DONE<<1 | ERR<<2 | EQ<<3. -/
def State.statusWord (s : State) : Word :=
  BitVec.ofNat 32 (s.busy.toNat + 2 * s.done.toNat + 4 * s.err.toNat + 8 * s.eq.toNat)

/-- R50: ERRCODE as read, CODE in bits [3:0] and SRC in bit [8]. -/
def State.errCodeWord (s : State) : Word :=
  BitVec.ofNat 32 (s.errCode.toNat + 256 * s.errSrc.toNat)

/-- R57, R326: the interrupt line, a level. -/
def State.irq (s : State) : Bool := (s.ieDone && s.done) || (s.ieErr && s.err)

end Sys2Proof.Machine
end

