-- ==== Sys2Proof/Machine/EdwardsPoint.lean ====
section
/-! DEFINITION. The commands of the edwards_point_adder unit (44_edwards_point.md). All arithmetic of
the formulas is mod p, on residues. -/

namespace Sys2Proof.Machine

/-- R276: the source's "Double" formula with a = −1; T is not read. -/
def doublePoint (q : Point) : Point :=
  let a := sqrP q.x
  let b := sqrP q.y
  let c := mulP 2 (sqrP q.z)
  let d := negP a
  let e := subP (subP (sqrP (addP q.x q.y)) a) b
  let g := addP d b
  let f := subP g c
  let h := subP d b
  ⟨mulP e f, mulP g h, mulP f g, mulP e h⟩

/-- R273: the source's "Add" formula; where F = 0 it returns the double of the first point. -/
def addPoint (q r : Point) : Point :=
  let a := mulP (subP q.y q.x) (addP r.y r.x)
  let b := mulP (addP q.y q.x) (subP r.y r.x)
  let f := subP b a
  if f = 0 then doublePoint q
  else
    let c := mulP 2 (mulP q.z r.t)
    let d := mulP 2 (mulP q.t r.z)
    let e := addP d c
    let g := addP b a
    let h := subP d c
    ⟨mulP e f, mulP g h, mulP f g, mulP e h⟩

/-- R277: `((0 - X) mod p, Y, Z, (0 - T) mod p)`. -/
def negPoint (q : Point) : Point := ⟨negP q.x, q.y, q.z, negP q.t⟩

/-- R271: `P[d] <- (x, y, 1, (x * y) mod p)` from the pair F[a], F[a+1]. -/
def execPext (d a : RegIdx) (s : State) : Host.Outcome State Fault Refusal :=
  guardOperands (isPoint d && isPair a) s
    (finish (s.writePoint d (extend (s.red a) (s.red (a + 1)))))

/-- R272: `P[d] <-` P[a] normalised to Z = 1, or InvalidPoint where Z ≡ 0. -/
def execPaff (d a : RegIdx) (s : State) : Host.Outcome State Fault Refusal :=
  guardOperands (isPoint d && isPoint a) s
    (finishOr .invalidPoint s
      ((toAffine (s.point a)).map (fun q => s.writePoint d (extend q.1 q.2))))

/-- R273: `P[d] <- P[a] + P[b]` by the formula. -/
def execPadd (d a b : RegIdx) (s : State) : Host.Outcome State Fault Refusal :=
  guardOperands (isPoint d && isPoint a && isPoint b) s
    (finish (s.writePoint d (addPoint (s.point a) (s.point b))))

/-- R275: "Sub = add with neg". -/
def execPsub (d a b : RegIdx) (s : State) : Host.Outcome State Fault Refusal :=
  guardOperands (isPoint d && isPoint a && isPoint b) s
    (finish (s.writePoint d (addPoint (s.point a) (negPoint (s.point b)))))

/-- R276: `P[d] <- 2·P[a]` by the formula. -/
def execPdbl (d a : RegIdx) (s : State) : Host.Outcome State Fault Refusal :=
  guardOperands (isPoint d && isPoint a) s (finish (s.writePoint d (doublePoint (s.point a))))

/-- R277: `P[d] <- −P[a]`. -/
def execPneg (d a : RegIdx) (s : State) : Host.Outcome State Fault Refusal :=
  guardOperands (isPoint d && isPoint a) s (finish (s.writePoint d (negPoint (s.point a))))

/-- R278: `EQ <-` P[a] = P[b] as projective points; no register is written. -/
def execPeq (a b : RegIdx) (s : State) : Host.Outcome State Fault Refusal :=
  guardOperands (isPoint a && isPoint b) s
    (finish (s.writeEq (eqPoint (s.point a) (s.point b))))

end Sys2Proof.Machine
end

