-- ==== Sys2Proof/Machine/ModularInverter.lean ====
section
/-! DEFINITION. The commands of the modular_inverter unit (42_modular_inverter.md). -/

namespace Sys2Proof.Machine

/-- R221, R222: `F[d] <- x^(p-2) mod p`; 0 gives 0, no error. -/
def execFinv (d a : RegIdx) (s : State) : Host.Outcome State Fault Refusal :=
  finish (s.writeNat d (invP (s.red a)))

/-- R223: `F[d] <- red(F[a])^(2^k) mod p` by k squarings. -/
def execFpow2 (d a : RegIdx) (k : BitVec 11) (s : State) : Host.Outcome State Fault Refusal :=
  finish (s.writeNat d (pow2P k.toNat (s.red a)))

/-- R224: `F[d] <- x^((p-5)/8) mod p; F[d+1] <- x^3 mod p`. -/
def execPow22523 (d a : RegIdx) (s : State) : Host.Outcome State Fault Refusal :=
  guardOperands (isPair d) s (finish (s.writePair d (chainP (s.red a))))

end Sys2Proof.Machine
end

