-- ==== Sys2Proof/Machine/ModularReducer.lean ====
section
/-! DEFINITION. The commands of the modular_reducer unit (41_modular_reducer.md). -/

namespace Sys2Proof.Machine

/-- R203: `F[d] <- F[a] mod p`. -/
def execFred (d a : RegIdx) (s : State) : Host.Outcome State Fault Refusal :=
  finish (s.writeNat d (s.red a))

/-- R204: `F[d] <- (F[a] + 2^256 * F[a+1]) mod p`. -/
def execRedp (d a : RegIdx) (s : State) : Host.Outcome State Fault Refusal :=
  guardOperands (isPair a) s (finish (s.writeNat d (s.wide a % fieldPrime)))

/-- R206: `F[d] <- (F[a] + 2^256 * F[a+1]) mod ℓ`. -/
def execRedl (d a : RegIdx) (s : State) : Host.Outcome State Fault Refusal :=
  guardOperands (isPair a) s (finish (s.writeNat d (s.wide a % scalarOrder)))

end Sys2Proof.Machine
end

