-- ==== Sys2Proof/Machine/MontgomeryMult.lean ====
section
/-! DEFINITION. The commands of the montgomery_mult unit (40_montgomery_mult.md). -/

namespace Sys2Proof.Machine

/-- R152: NOP does nothing but complete. -/
def execNop (s : State) : Host.Outcome State Fault Refusal := finish s

/-- R153: `F[d] <- (x + y) mod p`. -/
def execFadd (d a b : RegIdx) (s : State) : Host.Outcome State Fault Refusal :=
  finish (s.writeNat d (addP (s.red a) (s.red b)))

/-- R154: `F[d] <- (x - y) mod p`. -/
def execFsub (d a b : RegIdx) (s : State) : Host.Outcome State Fault Refusal :=
  finish (s.writeNat d (subP (s.red a) (s.red b)))

/-- R155: `F[d] <- (0 - x) mod p`. -/
def execFneg (d a : RegIdx) (s : State) : Host.Outcome State Fault Refusal :=
  finish (s.writeNat d (negP (s.red a)))

/-- R156: `F[d] <- (x * y) mod p`. -/
def execFmul (d a b : RegIdx) (s : State) : Host.Outcome State Fault Refusal :=
  finish (s.writeNat d (mulP (s.red a) (s.red b)))

/-- R157: `F[d] <- (x * x) mod p`. -/
def execFsqr (d a : RegIdx) (s : State) : Host.Outcome State Fault Refusal :=
  finish (s.writeNat d (sqrP (s.red a)))

/-- R158: `F[d] <- F[a]`, all 256 bits, no reduction. -/
def execFmov (d a : RegIdx) (s : State) : Host.Outcome State Fault Refusal :=
  finish (s.writeReg d (s.reg a))

/-- R159: `F[d] <- CONST[c]`, IllegalOperand for c > 9. -/
def execFconst (d : RegIdx) (c : BitVec 11) (s : State) : Host.Outcome State Fault Refusal :=
  finishOr .illegalOperand s ((constTable c.toNat).map (s.writeReg d))

/-- R160: `EQ <- (x = y) ? 1 : 0`; no register is written. -/
def execFeq (a b : RegIdx) (s : State) : Host.Outcome State Fault Refusal :=
  finish (s.writeEq (eqField (s.red a) (s.red b)))

end Sys2Proof.Machine
end

