-- ==== Sys2Proof/Machine/Dispatch.lean ====
section
/-! DEFINITION. The completion of a command (10_state.md R56): one arm per command, its meaning. -/

namespace Sys2Proof.Machine

/-- Executes a command and completes it. -/
def exec (i : Instr) (s : State) : Host.Outcome State Fault Refusal :=
  match i with
  | .nop => Sys2Proof.Machine.execNop s
  | .fadd d a b => Sys2Proof.Machine.execFadd d a b s
  | .fsub d a b => Sys2Proof.Machine.execFsub d a b s
  | .fneg d a => Sys2Proof.Machine.execFneg d a s
  | .fmul d a b => Sys2Proof.Machine.execFmul d a b s
  | .fsqr d a => Sys2Proof.Machine.execFsqr d a s
  | .fmov d a => Sys2Proof.Machine.execFmov d a s
  | .fconst d c => Sys2Proof.Machine.execFconst d c s
  | .feq a b => Sys2Proof.Machine.execFeq a b s
  | .fred d a => Sys2Proof.Machine.execFred d a s
  | .redp d a => Sys2Proof.Machine.execRedp d a s
  | .redl d a => Sys2Proof.Machine.execRedl d a s
  | .finv d a => Sys2Proof.Machine.execFinv d a s
  | .fpow2 d a k => Sys2Proof.Machine.execFpow2 d a k s
  | .pow22523 d a => Sys2Proof.Machine.execPow22523 d a s
  | .sqrtratio d a b => Sys2Proof.Machine.execSqrtratio d a b s
  | .decomp d a => Sys2Proof.Machine.execDecomp d a s
  | .pcomp d a => Sys2Proof.Machine.execPcomp d a s
  | .pext d a => Sys2Proof.Machine.execPext d a s
  | .paff d a => Sys2Proof.Machine.execPaff d a s
  | .padd d a b => Sys2Proof.Machine.execPadd d a b s
  | .psub d a b => Sys2Proof.Machine.execPsub d a b s
  | .pdbl d a => Sys2Proof.Machine.execPdbl d a s
  | .pneg d a => Sys2Proof.Machine.execPneg d a s
  | .peq a b => Sys2Proof.Machine.execPeq a b s

end Sys2Proof.Machine
end

