-- ==== Sys2Proof/Machine/Window.lean ====
section
/-! DEFINITION. The register window as the host reads and writes it (20_memory.md R80 to R91,
10_state.md R44 to R58), and what each input of the environment does. -/

namespace Sys2Proof.Machine

/-- R80, R81: the offset a host address names, with the window at `base`, an open parameter of the
platform (R12, log entry 9); outside the window the block is not addressed. -/
def windowOffset (base addr : Nat) : Option Offset :=
  if base ≤ addr ∧ addr < base + 4096 then some (BitVec.ofNat 12 (addr - base)) else none

/-- R91: `addr[1:0]` is ignored (log entry 6), the transaction acts on the aligned word `off[11:2] ‖ 00`. -/
def align (off : Offset) : Offset := off &&& 0xFFC

/-- R87: the register and the word of it that an aligned offset in 0x100 to 0x4FC names. -/
def fieldSlot (o : Offset) : Option (RegIdx × Nat) :=
  if 0x100 ≤ o.toNat ∧ o.toNat ≤ 0x4FC then
    some (Fin.ofNat 32 ((o.toNat - 0x100) / 32), (o.toNat - 0x100) % 32 / 4)
  else none

/-- R87: word j of a field register, bits [32j+31 : 32j]. -/
def getWord (v : FieldWord) (j : Nat) : Word := v.extractLsb' (32 * j) 32

/-- R86: word j of a field register replaced, the other 224 bits unchanged. -/
def setWord (v : FieldWord) (j : Nat) (w : Word) : FieldWord :=
  (v &&& ~~~((0xFFFFFFFF : FieldWord) <<< (32 * j))) ||| (w.setWidth 256 <<< (32 * j))

/-- R44: ID, "EDDY". -/
def idWord : Word := 0x45444459

/-- R45: VERSION. -/
def versionWord : Word := 0x00000001

/-- R46: PARAM (NREG 32, NCONST 10, HAS_REDL 1). -/
def paramWord : Word := 0x00010A20

/-- The registers at 0x000 to 0x01C as read (R44 to R51); every other offset outside the field
registers reads 0 (R83). -/
def State.controlRead (s : State) (o : Offset) : Word :=
  if o = 0x000 then idWord
  else if o = 0x004 then versionWord
  else if o = 0x008 then paramWord
  else if o = 0x00C then s.ctrlWord
  else if o = 0x010 then s.statusWord
  else if o = 0x014 then s.lastCmd
  else if o = 0x018 then s.errCodeWord
  else if o = 0x01C then s.errInfo
  else 0

/-- A read transaction answers with `w`. -/
def State.answer (s : State) (w : Word) : State := { s with rdata := some w }

/-- R89: a read of a field register while BUSY = 1 answers with a free value. -/
def State.answerFree (s : State) : State :=
  { s with rdata := some (Config.freeRead s.draws), draws := s.draws + 1 }

/-- R85, `MemRead(off, 4)`. -/
def State.busRead (s : State) (off : Offset) : State :=
  match fieldSlot (align off) with
  | some (i, j) => if s.busy then s.answerFree else s.answer (getWord (s.reg i) j)
  | none => s.answer (s.controlRead (align off))

/-- R47: `if v[31] = 1 then SoftReset() else CTRL[1:0] <- v[1:0]`. -/
def State.writeCtrl (s : State) (v : Word) : State :=
  if v.getLsbD 31 then s.resetBlock else { s with ieDone := v.getLsbD 0, ieErr := v.getLsbD 1 }

/-- R48, R86: a 1 in bit 1 clears DONE, a 1 in bit 2 clears ERR with its record (R55). -/
def State.writeStatus (s : State) (v : Word) : State :=
  let t := if v.getLsbD 1 then { s with done := false } else s
  if v.getLsbD 2 then t.clearError else t

/-- R49: a write of CMD is accepted while BUSY = 0, else discarded with BusyAccess (R315). -/
def State.writeCmd (s : State) (w : Word) : State :=
  if s.busy then s.recordError .busyAccess false w else s.accept w

/-- R86: a write of word j of F[i], discarded with BusyAccess while BUSY = 1 (R89, R315). -/
def State.writeField (s : State) (o : Offset) (i : RegIdx) (j : Nat) (v : Word) : State :=
  if s.busy then s.recordError .busyAccess true (o.setWidth 32)
  else s.writeReg i (setWord (s.reg i) j v)

/-- R86, `MemWrite(off, 4, v)`: a write to a read-only register or a reserved offset has no effect
(R58, R83). -/
def State.busWrite (s : State) (off : Offset) (v : Word) : State :=
  if align off = 0x00C then s.writeCtrl v
  else if align off = 0x010 then s.writeStatus v
  else if align off = 0x014 then s.writeCmd v
  else
    match fieldSlot (align off) with
    | some (i, j) => s.writeField (align off) i j v
    | none => s

/-- R33: the effect of a transaction. -/
def State.transact (s : State) : Transaction → State
  | .write off v => s.busWrite off v
  | .read off => s.busRead off

/-! ### Bytes (R88) -/

/-- Byte k of the 32-byte little-endian serialisation of a 256-bit value, bits [8k+7 : 8k]. -/
def getByte (v : FieldWord) (k : Nat) : BitVec 8 := v.extractLsb' (8 * k) 8

/-- The bus word a host writes for four bytes of a serialisation, the first one least significant. -/
def wordOfBytes (b0 b1 b2 b3 : BitVec 8) : Word :=
  BitVec.ofNat 32 (b0.toNat + 2 ^ 8 * b1.toNat + 2 ^ 16 * b2.toNat + 2 ^ 24 * b3.toNat)

end Sys2Proof.Machine
end

