-- ==== Sys2Proof/Machine/Step.lean ====
section
/-! DEFINITION. One step of the block: the next input of the environment takes effect, or the core
completes the command in flight (10_state.md R30, R56; 20_memory.md R94). -/

namespace Sys2Proof.Machine

/-- R56, R126: the completion step, enabled only when InFlight is non-empty (log entry 15); it decodes the word in
flight and executes it, or ends it with its decode error. -/
def coreStep (s : State) : Host.Outcome State Fault Refusal :=
  match s.inFlight with
  | none => .next s
  | some w =>
    match decode w with
    | .ok i => exec i s
    | .error e => .next (s.failDecode e)

/-- One step. With no input to come, the core moves, which R373 says it eventually does (log
entry 2). -/
def step (s : State) : Host.Outcome State Fault Refusal :=
  match s.events with
  | [] => coreStep s.advance
  | .completion :: _ => coreStep s.advance
  | .host t :: _ => .next (s.advance.transact t)
  | .reset :: _ => .next s.advance.resetBlock
  | .unstable :: _ => .refused .unstableTransaction

/-- The state in which the command word `w` has been accepted (R49) and the core moves next. It stands
for the host's write of CMD (log entry 5). -/
def State.withFetchWord (s : State) (nbits w : Nat) : State :=
  let t := s.accept (BitVec.ofNat 32 (w % 2 ^ nbits))
  match s.events with
  | [] => t
  | _ :: _ => { t with events := .completion :: s.events }

end Sys2Proof.Machine
end

