-- ==== Sys2Proof/Machine/Assembler.lean ====
section
/-! DEFINITION. The assembler notation of a command and the pseudo-commands with their expansions
(30_encoding.md R134, R135; log entries 11 and 14), and the execution of a list of commands, one after
another. -/

namespace Sys2Proof.Machine

/-! ### Notation (R134) -/

/-- `f0` to `f31`; a pair is written as its first register. -/
def asmField (r : RegIdx) : String := "f" ++ toString r.val

/-- `p0` to `p7`, encoded as 4·N. -/
def asmPoint (r : RegIdx) : String := "p" ++ toString (r.val / 4)

/-- `#` and a constant name of R42. -/
def asmConst (c : BitVec 11) : String :=
  "#" ++ (["ZERO", "ONE", "D", "SQRTM1", "GX", "GY", "A24", "MINUS_ONE", "L", "H"][c.toNat]?).getD
    (toString c.toNat)

/-- `#` and a decimal number. -/
def asmCount (k : BitVec 11) : String := "#" ++ toString k.toNat

/-- A mnemonic and its operands, separated by commas. -/
def asmLine (mnemonic : String) (operands : List String) : String :=
  match operands with
  | [] => mnemonic
  | o :: os => mnemonic ++ " " ++ os.foldl (fun line x => line ++ ", " ++ x) o

/-- R134: one command per line, operands in the order RD, RA, RB, IMM of the used fields. -/
def asm : Instr → String
  | .nop => asmLine "NOP" []
  | .fadd d a b => asmLine "FADD" [asmField d, asmField a, asmField b]
  | .fsub d a b => asmLine "FSUB" [asmField d, asmField a, asmField b]
  | .fneg d a => asmLine "FNEG" [asmField d, asmField a]
  | .fmul d a b => asmLine "FMUL" [asmField d, asmField a, asmField b]
  | .fsqr d a => asmLine "FSQR" [asmField d, asmField a]
  | .fmov d a => asmLine "FMOV" [asmField d, asmField a]
  | .fconst d c => asmLine "FCONST" [asmField d, asmConst c]
  | .feq a b => asmLine "FEQ" [asmField a, asmField b]
  | .fred d a => asmLine "FRED" [asmField d, asmField a]
  | .redp d a => asmLine "REDP" [asmField d, asmField a]
  | .redl d a => asmLine "REDL" [asmField d, asmField a]
  | .finv d a => asmLine "FINV" [asmField d, asmField a]
  | .fpow2 d a k => asmLine "FPOW2" [asmField d, asmField a, asmCount k]
  | .pow22523 d a => asmLine "POW22523" [asmField d, asmField a]
  | .sqrtratio d a b => asmLine "SQRTRATIO" [asmField d, asmField a, asmField b]
  | .decomp d a => asmLine "DECOMP" [asmPoint d, asmField a]
  | .pcomp d a => asmLine "PCOMP" [asmField d, asmPoint a]
  | .pext d a => asmLine "PEXT" [asmPoint d, asmField a]
  | .paff d a => asmLine "PAFF" [asmPoint d, asmPoint a]
  | .padd d a b => asmLine "PADD" [asmPoint d, asmPoint a, asmPoint b]
  | .psub d a b => asmLine "PSUB" [asmPoint d, asmPoint a, asmPoint b]
  | .pdbl d a => asmLine "PDBL" [asmPoint d, asmPoint a]
  | .pneg d a => asmLine "PNEG" [asmPoint d, asmPoint a]
  | .peq a b => asmLine "PEQ" [asmPoint a, asmPoint b]

/-! ### Pseudo-commands (R135) -/

/-- A pseudo-command. `d`, `a`, `b` are field registers, `t` a scratch register, `n` the index 4·N of
a point register. -/
inductive Pseudo where
  | fzero (d : RegIdx)
  | fone (d : RegIdx)
  | pident (n : RegIdx)
  | pbase (n : RegIdx)
  | fsqrt (d a t : RegIdx)
  | fdiv (d a b t : RegIdx)
  | fiszero (a t : RegIdx)
  | finvchain (d a t : RegIdx)
  deriving DecidableEq, Repr

/-- The commands a pseudo-command expands to, in order. -/
def expand : Pseudo → List Instr
  | .fzero d => [.fconst d 0]
  | .fone d => [.fconst d 1]
  | .pident n => [.fconst n 0, .fconst (n + 1) 1, .fconst (n + 2) 1, .fconst (n + 3) 0]
  | .pbase n => [.fconst n 4, .fconst (n + 1) 5, .pext n n]
  | .fsqrt d a t => [.fconst t 1, .sqrtratio d a t]
  | .fdiv d a b t => [.finv t b, .fmul d a t]
  | .fiszero a t => [.fconst t 0, .feq a t]
  | .finvchain d a t => [.pow22523 t a, .fpow2 d t 3, .fmul d d (t + 1)]

/-- The registers a pseudo-command needs apart (R135: FDIV "needs t ≠ a", FINVCHAIN "needs t ≤ 30 and
d ≠ t+1"), and a point index where it names one. -/
def Pseudo.admits : Pseudo → Bool
  | .fzero _ | .fone _ | .fsqrt _ _ _ | .fiszero _ _ => true
  | .pident n | .pbase n => isPoint n
  | .fdiv _ a _ t => t != a
  | .finvchain d _ t => isPair t && d != t + 1

/-- The commands of a list executed one after another, each completed before the next is accepted
(70_reset_and_hazards.md R361); the host's CMD writes between them are left out. -/
def execAll : List Instr → State → Host.Outcome State Fault Refusal
  | [], s => .next s
  | i :: is, s =>
    match exec i s with
    | .next t => execAll is t
    | .fault e => .fault e
    | .refused e => .refused e

end Sys2Proof.Machine
end

