-- ==== Sys2Proof/Machine/Cycles.lean ====
section
/-! DEFINITION. The block clock cycle by clock cycle, over the same operations as the step: which
transaction and which completion fall in a cycle (60_exceptions.md R319), the reset input (R350), and
the latency LAT(w), which the spec leaves open and a model takes as an argument (00_scope.md R12,
70_reset_and_hazards.md R371, R372; log entry 12). The bus protocol inside a transaction is not
modelled (R33, log entry 9): a cycle's transaction is the one whose `ack` falls in it. -/

namespace Sys2Proof.Machine

/-- What the ports bring to one rising edge of `clk`. -/
structure CycleInput where
  /-- The port `rst_n`, active low. -/
  rstN : Bool
  /-- The transaction that completes in this cycle, if one does. -/
  host : Option Transaction
  deriving DecidableEq, Repr

/-- The block and the number of cycles left until the command in flight completes. -/
structure Clocked where
  s : State
  left : Nat
  deriving DecidableEq, Repr

/-- The host's part of a cycle. -/
def hostPart (s : State) : Option Transaction → State
  | some t => ({ s with rdata := none } : State).transact t
  | none => { s with rdata := none }

/-- The core's part of a cycle: the completion falls in it when one cycle was left. -/
def corePart (t : State) (left : Nat) : Host.Outcome Clocked Fault Refusal :=
  if left ≤ 1 then
    match coreStep t with
    | .next u => .next ⟨u, 0⟩
    | .fault e => .fault e
    | .refused e => .refused e
  else .next ⟨t, left - 1⟩

/-- One clock cycle. A reset wins over everything (R350). R319: "first the host transaction of that
cycle, evaluated against the state at the start of the cycle, then the completion step if it falls in
that cycle". A command accepted at this edge completes `lat w` edges later (R371). -/
def cycle (lat : Word → Nat) (c : CycleInput) (m : Clocked) : Host.Outcome Clocked Fault Refusal :=
  if c.rstN then
    match m.s.inFlight, (hostPart m.s c.host).inFlight with
    | none, some w => .next ⟨hostPart m.s c.host, lat w⟩
    | _, none => .next ⟨hostPart m.s c.host, 0⟩
    | some _, some _ => corePart (hostPart m.s c.host) m.left
  else .next ⟨({ m.s with rdata := none } : State).resetBlock, 0⟩

/-- Cycle after cycle. -/
def runCycles (lat : Word → Nat) : List CycleInput → Clocked → Host.Outcome Clocked Fault Refusal
  | [], m => .next m
  | c :: cs, m =>
    match cycle lat c m with
    | .next n => runCycles lat cs n
    | .fault e => .fault e
    | .refused e => .refused e

end Sys2Proof.Machine
end

