-- ==== Sys2Proof/Safety.lean ====
section
/-! DEFINITION. The terms in which claims about the block are stated: the invariant of its states, what
completing a command leaves unchanged, and the mathematics its registers stand for. -/

namespace Sys2Proof.Machine

/-! ### Safe runs -/

/-- No input to come breaks the bus protocol (R32), so no step is refused. -/
def SafeInputs (s : State) : Prop := Event.unstable ∉ s.events

/-- The states the rules speak of. R56: InFlight is non-empty exactly when BUSY = 1, and then LASTCMD
is its word and DONE is clear (R49). R317: ERR = 1 comes with a nonzero CODE and CODE = 0 with
ERR = 0; codes 5 to 15 are never produced. R50, R51: with ERR = 0 the record is 0, and SRC = 1 comes
with BUSY_ACCESS only (log entry 13). -/
structure Inv (s : State) : Prop where
  busy_iff : s.busy = true ↔ s.inFlight.isSome = true
  lastCmd_of_inFlight : ∀ w, s.inFlight = some w → s.lastCmd = w
  done_of_busy : s.busy = true → s.done = false
  err_iff : s.err = true ↔ s.errCode ≠ 0
  code_le : s.errCode.toNat ≤ 4
  src_code : s.errSrc = true → s.errCode = 3
  info_of_noErr : s.err = false → s.errInfo = 0

/-! ### Frames -/

/-- `t` is `s` after a completion (R56), apart from F, EQ and the error record. -/
structure Completes (s t : State) : Prop where
  busy : t.busy = false
  done : t.done = true
  inFlight : t.inFlight = none
  lastCmd : t.lastCmd = s.lastCmd
  ieDone : t.ieDone = s.ieDone
  ieErr : t.ieErr = s.ieErr
  events : t.events = s.events
  rdata : t.rdata = s.rdata
  draws : t.draws = s.draws

/-- Every register outside the list is unchanged. -/
def SameRegs (except : List RegIdx) (s t : State) : Prop := ∀ r, r ∉ except → t.reg r = s.reg r

/-- ERR, ERRCODE and ERRINFO are unchanged. -/
def SameError (s t : State) : Prop :=
  t.err = s.err ∧ t.errCode = s.errCode ∧ t.errSrc = s.errSrc ∧ t.errInfo = s.errInfo

/-- R311: an error with this code, source and item has been recorded, the first one being kept. -/
def Recorded (code : BitVec 4) (src : Bool) (info : Word) (s t : State) : Prop :=
  t.err = true ∧
    (s.err = false → t.errCode = code ∧ t.errSrc = src ∧ t.errInfo = info) ∧
    (s.err = true → t.errCode = s.errCode ∧ t.errSrc = s.errSrc ∧ t.errInfo = s.errInfo)

/-- A command has completed that writes the listed registers and nothing else. -/
def WritesOnly (ds : List RegIdx) (s t : State) : Prop :=
  Completes s t ∧ SameError s t ∧ t.eq = s.eq ∧ SameRegs ds s t

/-- A command has completed that writes EQ and nothing else. -/
def WritesEqOnly (s t : State) : Prop := Completes s t ∧ SameError s t ∧ SameRegs [] s t

/-- R312: a command has ended with an error: no register written, EQ unchanged, the command word
recorded with SRC = 0. -/
def FailsWith (code : BitVec 4) (word : Word) (s t : State) : Prop :=
  Completes s t ∧ SameRegs [] s t ∧ t.eq = s.eq ∧ Recorded code false word s t

/-- The command ends without an error: where none is recorded yet, it records none. (With ERR = 1 a later
error leaves no trace in the record, R311, so the condition looks at the state with ERR clear.) -/
def EndsWithoutError (i : Instr) (s : State) : Prop :=
  ∃ u, exec i s.clearError = .next u ∧ u.err = false

/-- The registers a command writes. -/
def dests : Instr → List RegIdx
  | .nop | .feq _ _ | .peq _ _ => []
  | .fadd d _ _ | .fsub d _ _ | .fneg d _ | .fmul d _ _ | .fsqr d _ | .fmov d _ | .fconst d _
  | .fred d _ | .redp d _ | .redl d _ | .finv d _ | .fpow2 d _ _ | .sqrtratio d _ _
  | .pcomp d _ => [d]
  | .pow22523 d _ => [d, d + 1]
  | .decomp d _ | .pext d _ | .paff d _ | .padd d _ _ | .psub d _ _ | .pdbl d _ | .pneg d _ =>
    [d, d + 1, d + 2, d + 3]

/-- The commands that write EQ (R52). -/
def isCompare : Instr → Bool
  | .feq _ _ | .peq _ _ => true
  | _ => false

/-- The commands that can end with InvalidPoint (R316). -/
def canRejectPoint : Instr → Bool
  | .sqrtratio _ _ _ | .decomp _ _ | .pcomp _ _ | .paff _ _ => true
  | _ => false

/-- The core moves next: its turn has come, or no input is left. -/
def CoreIsNext (s : State) : Prop := s.events = [] ∨ s.events.head? = some .completion

/-- A reset is the next input: the reset port (R350), or the host's write of CTRL with bit 31 set
(R47, R352), at whatever offset of that word (R91). -/
def ResetIsNext (s : State) : Prop :=
  s.events.head? = some .reset ∨
    ∃ off v, s.events.head? = some (.host (.write off v)) ∧ off.toNat / 4 = 3 ∧ v.getLsbD 31 = true

/-- The next input acknowledges an error: a write of STATUS with bit 2 set (R322). -/
def AcknowledgeIsNext (s : State) : Prop :=
  ∃ off v, s.events.head? = some (.host (.write off v)) ∧ off.toNat / 4 = 4 ∧ v.getLsbD 2 = true

/-- R125: the 39 reserved values of OP. -/
def ReservedOp (op : Nat) : Prop :=
  (0x09 ≤ op ∧ op ≤ 0x0F) ∨ (0x13 ≤ op ∧ op ≤ 0x17) ∨ (0x1B ≤ op ∧ op ≤ 0x1F) ∨
    (0x23 ≤ op ∧ op ≤ 0x27) ∨ (0x2F ≤ op ∧ op ≤ 0x3F)

/-- R313, R314, R316: the word in flight ends with this code: a word with a reserved OP, any other word
that no command encodes to, or a command that ends with InvalidPoint. -/
def EndsWithCode (w : Word) (s : State) (code : BitVec 4) : Prop :=
  (code = 1 ∧ ReservedOp (w.toNat % 2 ^ 6)) ∨
    (code = 2 ∧ ¬ ReservedOp (w.toNat % 2 ^ 6) ∧ ∀ i, WellFormed i → encode i ≠ w) ∨
    (code = 4 ∧ ∃ i u, decode w = .ok i ∧ exec i s.clearError = .next u ∧ u.errCode = 4)

/-! ### What registers stand for -/

/-- R22: a canonical value. -/
def Canonical (v : FieldWord) : Prop := v.toNat < fieldPrime

/-- The residue a register stands for (R150), as an element of ZMod p. -/
def State.val (s : State) (r : RegIdx) : ZMod fieldPrime := ((s.reg r).toNat : ZMod fieldPrime)

/-- An extended point over GF(p). -/
structure FieldPoint where
  x : ZMod fieldPrime
  y : ZMod fieldPrime
  z : ZMod fieldPrime
  t : ZMod fieldPrime

/-- P[a] (R40). -/
def State.fieldPoint (s : State) (a : RegIdx) : FieldPoint :=
  ⟨s.val a, s.val (a + 1), s.val (a + 2), s.val (a + 3)⟩

/-- P[d] holds the point, in canonical values (R270). -/
def HoldsPoint (s : State) (d : RegIdx) (q : FieldPoint) : Prop :=
  s.val d = q.x ∧ s.val (d + 1) = q.y ∧ s.val (d + 2) = q.z ∧ s.val (d + 3) = q.t ∧
    ∀ r ∈ [d, d + 1, d + 2, d + 3], Canonical (s.reg r)

/-- R276, the "Double" formula with a = −1. -/
def doubleFormula (q : FieldPoint) : FieldPoint :=
  let A := q.x ^ 2
  let B := q.y ^ 2
  let C := 2 * q.z ^ 2
  let D := -A
  let E := (q.x + q.y) ^ 2 - A - B
  let G := D + B
  let F := G - C
  let H := D - B
  ⟨E * F, G * H, F * G, E * H⟩

/-- R273, the "Add" formula, with its branch for F = 0. -/
def addFormula (q r : FieldPoint) : FieldPoint :=
  let A := (q.y - q.x) * (r.y + r.x)
  let B := (q.y + q.x) * (r.y - r.x)
  let F := B - A
  if F = 0 then doubleFormula q
  else
    let C := 2 * q.z * r.t
    let D := 2 * q.t * r.z
    let E := D + C
    let G := B + A
    let H := D - C
    ⟨E * F, G * H, F * G, E * H⟩

/-- R277. -/
def negFormula (q : FieldPoint) : FieldPoint := ⟨-q.x, q.y, q.z, -q.t⟩

/-- The curve constant d (R42) in GF(p). -/
def curveDF : ZMod fieldPrime := (curveD : ZMod fieldPrime)

/-- R246, R276: X/Z = x and Y/Z = y for a point (x, y) of the curve, whatever T is. -/
def Projects (q : FieldPoint) (x y : ZMod fieldPrime) : Prop :=
  q.z ≠ 0 ∧ q.x = x * q.z ∧ q.y = y * q.z ∧ -x ^ 2 + y ^ 2 = 1 + curveDF * x ^ 2 * y ^ 2

/-- R21, R270: (X, Y, Z, T) is the extended point of the affine point (x, y) of the curve
−x² + y² = 1 + d·x²·y². -/
def Represents (q : FieldPoint) (x y : ZMod fieldPrime) : Prop :=
  q.z ≠ 0 ∧ q.x = x * q.z ∧ q.y = y * q.z ∧ q.t = x * y * q.z ∧
    -x ^ 2 + y ^ 2 = 1 + curveDF * x ^ 2 * y ^ 2

/-- R241 on exact powers: the square root of u/v the formula yields, or none. -/
def sqrtFormula (u v : Nat) : Option Nat :=
  let x := u * v ^ 3 * (u * v ^ 7) ^ ((fieldPrime - 5) / 8) % fieldPrime
  if v * x * x % fieldPrime = u % fieldPrime then some x
  else if (v * x * x + u) % fieldPrime = 0 then some (x * sqrtM1 % fieldPrime)
  else none

end Sys2Proof.Machine
end

