-- ==== Sys2Proof/Certificates/Slice0/Obligations.lean ====
section
/-! DEFINITION. The statements for the provers. Rule numbers are those of spec/. Offsets are compared by
the word they lie in, `off.toNat / 4`, since `addr[1:0]` is ignored (R91). -/

open Sys2Proof Sys2Proof.Machine

/-! ### Encoding -/

/-- R133: decode and encode agree on every command, every operand at every value it admits. -/
def Obligations.DecodeOfEncodeIsTheCommand : Prop :=
  ∀ i : Instr, WellFormed i → decode (encode i) = .ok i

/-- R128: every legal command has exactly one encoding. -/
def Obligations.LegalWordIsTheOneEncoding : Prop :=
  ∀ (w : Word) (i : Instr), decode w = .ok i → WellFormed i ∧ encode i = w

/-- R127: a word is an illegal opcode exactly when its OP is one of the 39 reserved values. -/
def Obligations.ReservedOpcodesAreIllegal : Prop :=
  ∀ w : Word, decode w = .error .illegalOpcode ↔ ReservedOp (w.toNat % 2 ^ 6)

/-- R129, R130: a point field that is no multiple of 4, and a pair field of 31, are illegal operands;
the fields of each kind are those of R125. -/
def Obligations.PointAndPairFieldsAreChecked : Prop :=
  ∀ w : Word,
    let op := w.toNat % 2 ^ 6
    let rd := w.toNat / 2 ^ 6 % 2 ^ 5
    let ra := w.toNat / 2 ^ 11 % 2 ^ 5
    let rb := w.toNat / 2 ^ 16 % 2 ^ 5
    ((op ∈ [0x21, 0x28, 0x29, 0x2A, 0x2B, 0x2C, 0x2D] ∧ rd % 4 ≠ 0) ∨
      (op ∈ [0x22, 0x29, 0x2A, 0x2B, 0x2C, 0x2D, 0x2E] ∧ ra % 4 ≠ 0) ∨
      (op ∈ [0x2A, 0x2B, 0x2E] ∧ rb % 4 ≠ 0) ∨
      (op ∈ [0x11, 0x12, 0x28] ∧ ra = 31) ∨ (op = 0x1A ∧ rd = 31)) →
    decode w = .error .illegalOperand

/-- R128, R131: a nonzero field that the format of R122 does not use, and an FCONST index above 9, are
illegal operands; FPOW2 accepts every IMM. -/
def Obligations.UnusedFieldsAndConstantIndexAreChecked : Prop :=
  (∀ w : Word,
    let op := w.toNat % 2 ^ 6
    let rd := w.toNat / 2 ^ 6 % 2 ^ 5
    let ra := w.toNat / 2 ^ 11 % 2 ^ 5
    let rb := w.toNat / 2 ^ 16 % 2 ^ 5
    let imm := w.toNat / 2 ^ 21
    ((op = 0x00 ∧ (rd ≠ 0 ∨ ra ≠ 0 ∨ rb ≠ 0 ∨ imm ≠ 0)) ∨
      (op ∈ [0x01, 0x02, 0x04, 0x20, 0x2A, 0x2B] ∧ imm ≠ 0) ∨
      (op ∈ [0x03, 0x05, 0x06, 0x10, 0x11, 0x12, 0x18, 0x1A, 0x21, 0x22, 0x28, 0x29, 0x2C, 0x2D] ∧
        (rb ≠ 0 ∨ imm ≠ 0)) ∨
      (op = 0x07 ∧ (ra ≠ 0 ∨ rb ≠ 0)) ∨
      (op = 0x19 ∧ rb ≠ 0) ∨
      (op ∈ [0x08, 0x2E] ∧ (rd ≠ 0 ∨ imm ≠ 0)) ∨
      (op = 0x07 ∧ 9 < imm)) →
    decode w = .error .illegalOperand) ∧
  ∀ (d a : RegIdx) (k : BitVec 11), decode (commandWord 0x19 d a 0 k) = .ok (.fpow2 d a k)

/-- Words written out in the spec's own examples decode to the commands they stand for. -/
def Obligations.ExampleWordsDecode : Prop :=
  decode 0x00000000 = .ok .nop ∧ decode 0x000208C1 = .ok (.fadd 3 1 2) ∧
    decode 0x006000C7 = .ok (.fconst 3 3) ∧ decode 0x00020808 = .ok (.feq 1 2) ∧
    decode 0x000020D1 = .ok (.redp 3 4) ∧ decode 0x006008D9 = .ok (.fpow2 3 1 3) ∧
    decode 0x00000121 = .ok (.decomp 4 0) ∧ decode 0x0004022A = .ok (.padd 8 0 4) ∧
    decode 0x0004002E = .ok (.peq 0 4)

/-! ### The step and reset -/

/-- R56, R126: the core's step executes the command the word in flight decodes to. Around it, by the
model's choice (log entries 2 and 3), the step takes the input off the list and invalidates the data
port. -/
def Obligations.StepRunsTheDecodedCommand : Prop :=
  ∀ (s : State) (w : Word) (i : Instr), CoreIsNext s → s.inFlight = some w → decode w = .ok i →
    step s = exec i { s with events := s.events.tail, rdata := none }

/-- R313, R314: a word with a reserved OP ends with code 1, and any other word that is no encoding of a
command with code 2; ERRINFO is the word, no register is written, and the command completes. -/
def Obligations.IllegalWordsEndWithTheirError : Prop :=
  ∀ (s : State) (w : Word), CoreIsNext s → s.inFlight = some w →
    (ReservedOp (w.toNat % 2 ^ 6) →
      ∃ t, step s = .next t ∧ FailsWith 1 w { s with events := s.events.tail, rdata := none } t) ∧
    (¬ ReservedOp (w.toNat % 2 ^ 6) → (∀ i, WellFormed i → encode i ≠ w) →
      ∃ t, step s = .next t ∧ FailsWith 2 w { s with events := s.events.tail, rdata := none } t)

/-- R56: the completion step is enabled only when InFlight is non-empty. R354: with nothing in flight
the block executes nothing. -/
def Obligations.CoreIdlesWithNothingInFlight : Prop :=
  ∀ s : State, CoreIsNext s → s.inFlight = none →
    step s = .next { s with events := s.events.tail, rdata := none }

/-- R310: an error never stops the core. From every state whose inputs keep the bus protocol (R32), a
step gives a next state, and the inputs left keep it too. That a step with no input to come is the core's
is the model's choice (log entry 2). -/
def Obligations.EveryStepGoesOn : Prop :=
  ∀ s : State, SafeInputs s → ∃ t, step s = .next t ∧ SafeInputs t

/-- R351: the reset values of every state element, and what the register window reads after reset. -/
def Obligations.ResetValuesOfEveryElement : Prop :=
  ((∀ r, State.reset.reg r = 0) ∧ State.reset.ieDone = false ∧ State.reset.ieErr = false ∧
    State.reset.busy = false ∧ State.reset.done = false ∧ State.reset.err = false ∧
    State.reset.eq = false ∧ State.reset.errCode = 0 ∧ State.reset.errSrc = false ∧
    State.reset.errInfo = 0 ∧ State.reset.lastCmd = 0 ∧ State.reset.inFlight = none ∧
    State.reset.irq = false) ∧
  ∀ off : Offset, ∃ t, step { State.reset with events := [.host (.read off)] } = .next t ∧
    t.rdata = some (if off.toNat / 4 = 0 then 0x45444459 else if off.toNat / 4 = 1 then 0x00000001
      else if off.toNat / 4 = 2 then 0x00010A20 else 0)

/-- R350, R352, R353: a hard or soft reset gives every state element its reset value, whatever the
state, a command in flight included. -/
def Obligations.ResetRestoresEveryElement : Prop :=
  ∀ s : State, ResetIsNext s →
    step s = .next { State.reset with events := s.events.tail, draws := s.draws }

/-- The invariant holds at reset. -/
def Obligations.ResetStateMeetsTheInvariant : Prop := Inv State.reset

/-- R56, R317: from every state that meets the invariant, a step gives one that meets it: InFlight and
BUSY agree, ERR = 1 comes with a nonzero CODE, codes 5 to 15 are never produced. Its clauses on LASTCMD,
DONE and SRC are deduced (log entry 13). -/
def Obligations.StepKeepsTheInvariant : Prop :=
  ∀ s t : State, Inv s → step s = .next t → Inv t

/-! ### Rules of the whole machine -/

/-- R52: EQ is changed only by the completion of FEQ or PEQ, and by reset. -/
def Obligations.EqChangesOnlyByCompareOrReset : Prop :=
  ∀ s t : State, step s = .next t → t.eq ≠ s.eq →
    (CoreIsNext s ∧ ∃ w i, s.inFlight = some w ∧ decode w = .ok i ∧ isCompare i = true) ∨
      ResetIsNext s

/-- R311, R323: the first error since ERR was last cleared is kept until it is acknowledged or the block
is reset. -/
def Obligations.FirstErrorIsKept : Prop :=
  ∀ s t : State, step s = .next t → s.err = true → ¬ ResetIsNext s → ¬ AcknowledgeIsNext s →
    SameError s t

/-- R316, R363: a well-formed command other than SQRTRATIO, DECOMP, PCOMP and PAFF records no error. -/
def Obligations.OnlyFourCommandsCanFail : Prop :=
  ∀ (i : Instr) (s t : State), WellFormed i → canRejectPoint i = false → exec i s = .next t →
    SameError s t

/-- R89, R315: while BUSY = 1 no transaction but a soft reset changes F, EQ, LASTCMD or the command in
flight. -/
def Obligations.BusyBlockIsTheCores : Prop :=
  ∀ (s t : State) (tr : Transaction), s.events.head? = some (.host tr) → s.busy = true →
    ¬ ResetIsNext s → step s = .next t →
    SameRegs [] s t ∧ t.eq = s.eq ∧ t.lastCmd = s.lastCmd ∧ t.inFlight = s.inFlight ∧ t.busy = true

/-- R37, R151: every command result except FMOV's and PCOMP's is canonical: every register such a command
writes, when it ends without an error, holds a value below p, whether or not its content changes; and no
register changes to a value that is not canonical. -/
def Obligations.ResultsAreCanonical : Prop :=
  ∀ (i : Instr) (s t : State), exec i s = .next t → (∀ d a, i ≠ .fmov d a ∧ i ≠ .pcomp d a) →
    (EndsWithoutError i s → ∀ r ∈ dests i, Canonical (t.reg r)) ∧
    ∀ r, t.reg r ≠ s.reg r → Canonical (t.reg r)

/-- R129 to R131 for the meanings, the model's choice (log entry 10): with operands its kinds do not
admit, a command ends with IllegalOperand and writes nothing. No decoded word is such a command. The word
recorded is the one in flight (log entry 4 where there is none). -/
def Obligations.InadmissibleOperandsEndWithTheirError : Prop :=
  ∀ (i : Instr) (s : State), ¬ WellFormed i →
    ∃ t, exec i s = .next t ∧ FailsWith 2 s.currentWord s t

/-! ### The register window -/

/-- R44 to R51, R83: what the host reads at each control register and at a reserved offset. The read
changes nothing but the data port (R84). -/
def Obligations.ControlRegistersReadAsTheirWords : Prop :=
  ∀ (s : State) (off : Offset), s.events.head? = some (.host (.read off)) →
    (off.toNat / 4 < 0x40 ∨ 0x140 ≤ off.toNat / 4) →
    ∃ (t : State) (w : Word), step s = .next t ∧ t = { s with events := s.events.tail, rdata := some w } ∧
      (off.toNat / 4 = 0 → w = 0x45444459) ∧
      (off.toNat / 4 = 1 → w = 0x00000001) ∧
      (off.toNat / 4 = 2 → w = 0x00010A20) ∧
      (off.toNat / 4 = 3 → w.toNat = s.ieDone.toNat + 2 * s.ieErr.toNat) ∧
      (off.toNat / 4 = 4 →
        w.toNat = s.busy.toNat + 2 * s.done.toNat + 4 * s.err.toNat + 8 * s.eq.toNat) ∧
      (off.toNat / 4 = 5 → w = s.lastCmd) ∧
      (off.toNat / 4 = 6 → w.toNat = s.errCode.toNat + 256 * s.errSrc.toNat) ∧
      (off.toNat / 4 = 7 → w = s.errInfo) ∧
      (8 ≤ off.toNat / 4 → w = 0)

/-- R58, R83: a write to ID, VERSION, PARAM, ERRCODE or ERRINFO, or to a reserved offset, is ignored and
records no error. -/
def Obligations.WritesToReadOnlyOffsetsAreIgnored : Prop :=
  ∀ (s : State) (off : Offset) (v : Word), s.events.head? = some (.host (.write off v)) →
    (off.toNat / 4 ≤ 2 ∨ (6 ≤ off.toNat / 4 ∧ off.toNat / 4 < 0x40) ∨ 0x140 ≤ off.toNat / 4) →
    step s = .next { s with events := s.events.tail, rdata := none }

/-- R49: a write of CMD while BUSY = 0 accepts the word, whatever ERR is. -/
def Obligations.CommandIsAcceptedWhenIdle : Prop :=
  ∀ (s : State) (off : Offset) (w : Word), s.events.head? = some (.host (.write off w)) →
    off.toNat / 4 = 5 → s.busy = false →
    step s = .next { s with lastCmd := w, busy := true, done := false, inFlight := some w,
                            events := s.events.tail, rdata := none }

/-- R315: while BUSY = 1 a write of CMD is discarded and recorded with SRC = 0 and the word, a write of
a field register with SRC = 1 and its offset; nothing else changes. -/
def Obligations.BusyWritesAreDiscardedAndRecorded : Prop :=
  ∀ (s : State) (off : Offset) (v : Word), s.events.head? = some (.host (.write off v)) →
    s.busy = true →
    (off.toNat / 4 = 5 →
      ∃ t, step s = .next t ∧ Recorded 3 false v s t ∧
        t = { s with events := s.events.tail, rdata := none, err := t.err, errCode := t.errCode,
                     errSrc := t.errSrc, errInfo := t.errInfo }) ∧
    (0x40 ≤ off.toNat / 4 ∧ off.toNat / 4 < 0x140 →
      ∃ t, step s = .next t ∧ Recorded 3 true (BitVec.ofNat 32 (off.toNat / 4 * 4)) s t ∧
        t = { s with events := s.events.tail, rdata := none, err := t.err, errCode := t.errCode,
                     errSrc := t.errSrc, errInfo := t.errInfo })

/-- R86, R87: a write at 0x100 + 32·i + 4·j while BUSY = 0 replaces bits [32j+31 : 32j] of F[i] and
leaves its other bits, the other registers and everything else unchanged. -/
def Obligations.FieldWordWriteReplacesOneWord : Prop :=
  ∀ (s : State) (off : Offset) (v : Word) (i : RegIdx) (j : Fin 8),
    s.events.head? = some (.host (.write off v)) → off.toNat / 4 = 0x40 + 8 * i.val + j.val →
    s.busy = false →
    ∃ t, step s = .next t ∧
      (∀ b < 256, (t.reg i).getLsbD b =
        if b / 32 = j.val then v.getLsbD (b % 32) else (s.reg i).getLsbD b) ∧
      SameRegs [i] s t ∧ t = { s with f := t.f, events := s.events.tail, rdata := none }

/-- R85, R89: a read at 0x100 + 32·i + 4·j answers bits [32j+31 : 32j] of F[i] while BUSY = 0, and some
32-bit value while BUSY = 1; it changes nothing but the data port and the count of free values. -/
def Obligations.FieldWordReadAnswersOneWord : Prop :=
  ∀ (s : State) (off : Offset) (i : RegIdx) (j : Fin 8),
    s.events.head? = some (.host (.read off)) → off.toNat / 4 = 0x40 + 8 * i.val + j.val →
    ∃ (t : State) (w : Word), step s = .next t ∧
      t = { s with events := s.events.tail, rdata := some w, draws := t.draws } ∧
      (s.busy = false →
        t.draws = s.draws ∧ ∀ b < 32, w.getLsbD b = (s.reg i).getLsbD (32 * j.val + b))

/-- R91: `addr[1:0]` is ignored. -/
def Obligations.AddressLowBitsAreIgnored : Prop :=
  ∀ (s : State) (es : List Event) (off off' : Offset) (v : Word), off.toNat / 4 = off'.toNat / 4 →
    step { s with events := .host (.write off v) :: es } =
        step { s with events := .host (.write off' v) :: es } ∧
      step { s with events := .host (.read off) :: es } =
        step { s with events := .host (.read off') :: es }

/-- R47: a write of CTRL with bit 31 clear sets the two enables, whether or not BUSY = 1. R48, R55: a
write of STATUS clears DONE where bit 1 is 1, and ERR, ERRCODE and ERRINFO together where bit 2 is 1; a 0
leaves the bit unchanged, and BUSY and EQ are read-only. -/
def Obligations.CtrlAndStatusWritesTakeEffect : Prop :=
  ∀ (s : State) (off : Offset) (v : Word), s.events.head? = some (.host (.write off v)) →
    (off.toNat / 4 = 3 → v.getLsbD 31 = false →
      step s = .next { s with ieDone := v.getLsbD 0, ieErr := v.getLsbD 1,
                              events := s.events.tail, rdata := none }) ∧
    (off.toNat / 4 = 4 →
      step s = .next { s with
        done := s.done && !v.getLsbD 1
        err := s.err && !v.getLsbD 2
        errCode := if v.getLsbD 2 then 0 else s.errCode
        errSrc := s.errSrc && !v.getLsbD 2
        errInfo := if v.getLsbD 2 then 0 else s.errInfo
        events := s.events.tail
        rdata := none })

/-- R57: the interrupt line. -/
def Obligations.IrqIsTheEnabledStatus : Prop :=
  ∀ s : State, s.irq = true ↔
    (s.ieDone = true ∧ s.done = true) ∨ (s.ieErr = true ∧ s.err = true)

/-- R88: byte k of the serialisation lies in word k div 4 at bits [8(k mod 4)+7 : 8(k mod 4)], and four
bytes make the word the host writes. -/
def Obligations.SerialisationIsLittleEndian : Prop :=
  ∀ v : FieldWord,
    (∀ k < 32, getByte v k = (getWord v (k / 4)).extractLsb' (8 * (k % 4)) 8) ∧
    ∀ j < 8, wordOfBytes (getByte v (4 * j)) (getByte v (4 * j + 1)) (getByte v (4 * j + 2))
      (getByte v (4 * j + 3)) = getWord v j

/-! ### Clock cycles -/

/-- R319: in the cycle in which a command completes, the host's transaction comes first: (a) its write
of CMD or of a field register is a BUSY_ACCESS, and the discarded field write leaves F as the completion
alone would, so unchanged where the command ends with an error, (b) its clearing of DONE and ERR loses to
the completion, for every code the word can end with (R54, R55), (c) a BUSY_ACCESS recorded in that cycle
is the error that is kept. -/
def Obligations.HostComesBeforeCompletionInACycle : Prop :=
  ∀ (lat : Word → Nat) (m : Clocked) (w : Word) (off : Offset) (v : Word),
    m.s.busy = true → m.s.inFlight = some w → m.left ≤ 1 →
    (off.toNat / 4 = 4 →
      ∃ n, cycle lat ⟨true, some (.write off v)⟩ m = .next n ∧ n.s.busy = false ∧ n.s.done = true ∧
        ∀ code, EndsWithCode w m.s code → n.s.err = true ∧
          (v.getLsbD 2 = true ∨ m.s.err = false →
            n.s.errCode = code ∧ n.s.errSrc = false ∧ n.s.errInfo = w)) ∧
    (off.toNat / 4 = 5 →
      ∃ n, cycle lat ⟨true, some (.write off v)⟩ m = .next n ∧ n.s.busy = false ∧
        n.s.done = true ∧ n.s.inFlight = none ∧ n.s.lastCmd = m.s.lastCmd ∧
        (m.s.err = false → n.s.errCode = 3 ∧ n.s.errSrc = false ∧ n.s.errInfo = v)) ∧
    (0x40 ≤ off.toNat / 4 → off.toNat / 4 < 0x140 →
      ∃ n n', cycle lat ⟨true, some (.write off v)⟩ m = .next n ∧
        cycle lat ⟨true, none⟩ m = .next n' ∧ n.s.busy = false ∧ n.s.done = true ∧
        n.s.f = n'.s.f ∧ (∀ code, EndsWithCode w m.s code → n.s.f = m.s.f) ∧
        (m.s.err = false → n.s.errCode = 3 ∧ n.s.errSrc = true ∧
          n.s.errInfo = BitVec.ofNat 32 (off.toNat / 4 * 4)))

/-- R371, R373: a command accepted at an edge is in flight, with BUSY = 1, for exactly LAT(w) cycles,
and then has completed, whatever the host does meanwhile short of a reset. -/
def Obligations.BusyLastsExactlyTheLatency : Prop :=
  ∀ (lat : Word → Nat) (m : Clocked) (w : Word) (off : Offset) (cs : List CycleInput),
    1 ≤ lat w → m.s.busy = false → m.s.inFlight = none → off.toNat / 4 = 5 →
    (∀ c ∈ cs, c.rstN = true ∧
      ∀ o v, c.host = some (.write o v) → ¬ (o.toNat / 4 = 3 ∧ v.getLsbD 31 = true)) →
    ∃ n, cycle lat ⟨true, some (.write off w)⟩ m = .next n ∧
      (cs.length < lat w →
        ∃ u, runCycles lat cs n = .next u ∧ u.s.busy = true ∧ u.s.inFlight = some w) ∧
      (cs.length = lat w →
        ∃ u, runCycles lat cs n = .next u ∧ u.s.busy = false ∧ u.s.inFlight = none ∧
          u.s.done = true)

/-- R372: the cycles in which the block is busy depend on the words written, never on register contents,
EQ, ERR or earlier commands. -/
def Obligations.LatencyIsIndependentOfData : Prop :=
  ∀ (lat : Word → Nat) (cs : List CycleInput) (m m' n : Clocked),
    m'.s.busy = m.s.busy → m'.s.inFlight = m.s.inFlight → m'.left = m.left →
    runCycles lat cs m = .next n →
    ∃ n', runCycles lat cs m' = .next n' ∧ n'.s.busy = n.s.busy ∧ n'.s.inFlight = n.s.inFlight ∧
      n'.left = n.left

/-! ### The commands: montgomery_mult -/

/-- R152. -/
def Obligations.NopOnlyCompletes : Prop :=
  ∀ s : State, ∃ t, exec .nop s = .next t ∧ WritesOnly [] s t ∧
    decode (commandWord 0x00 0 0 0 0) = .ok .nop

/-- R153, R154, R155: the sum, the difference and the negative mod p of the raw contents. -/
def Obligations.AddSubNegModP : Prop :=
  ∀ (d a b : RegIdx) (s : State),
    (∃ t, exec (.fadd d a b) s = .next t ∧ WritesOnly [d] s t ∧
      (t.reg d).toNat = ((s.reg a).toNat + (s.reg b).toNat) % fieldPrime ∧
      decode (commandWord 0x01 d a b 0) = .ok (.fadd d a b)) ∧
    (∃ t, exec (.fsub d a b) s = .next t ∧ WritesOnly [d] s t ∧
      ((t.reg d).toNat : Int) = ((s.reg a).toNat - (s.reg b).toNat : Int) % fieldPrime ∧
      decode (commandWord 0x02 d a b 0) = .ok (.fsub d a b)) ∧
    (∃ t, exec (.fneg d a) s = .next t ∧ WritesOnly [d] s t ∧
      ((t.reg d).toNat : Int) = (-(s.reg a).toNat : Int) % fieldPrime ∧
      decode (commandWord 0x03 d a 0 0) = .ok (.fneg d a))

/-- R156, R157, R162: the canonical product mod p of the raw contents. -/
def Obligations.MulSqrModP : Prop :=
  ∀ (d a b : RegIdx) (s : State),
    (∃ t, exec (.fmul d a b) s = .next t ∧ WritesOnly [d] s t ∧
      (t.reg d).toNat = ((s.reg a).toNat * (s.reg b).toNat) % fieldPrime ∧
      decode (commandWord 0x04 d a b 0) = .ok (.fmul d a b)) ∧
    (∃ t, exec (.fsqr d a) s = .next t ∧ WritesOnly [d] s t ∧
      (t.reg d).toNat = ((s.reg a).toNat * (s.reg a).toNat) % fieldPrime ∧
      decode (commandWord 0x05 d a 0 0) = .ok (.fsqr d a))

/-- R158: all 256 bits, no reduction. -/
def Obligations.FmovCopiesRaw : Prop :=
  ∀ (d a : RegIdx) (s : State), ∃ t, exec (.fmov d a) s = .next t ∧ WritesOnly [d] s t ∧
    t.reg d = s.reg a ∧ decode (commandWord 0x06 d a 0 0) = .ok (.fmov d a)

/-- R159, R42: the ten constants; an index above 9 ends with IllegalOperand, the word recorded being the
one in flight (log entry 4 where there is none). -/
def Obligations.FconstLoadsTheTable : Prop :=
  ∀ (d : RegIdx) (c : BitVec 11) (s : State),
    (c.toNat ≤ 9 → ∃ t, exec (.fconst d c) s = .next t ∧ WritesOnly [d] s t ∧
      some (t.reg d).toNat =
        [ 0, 1, 0x52036cee2b6ffe738cc740797779e89800700a4d4141d8ab75eb4dca135978a3,
          0x2b8324804fc1df0b2b4d00993dfbd7a72f431806ad2fe478c4ee1b274a0ea0b0,
          0x216936d3cd6e53fec0a4e231fdd6dc5c692cc7609525a7b2c9562d608f25d51a,
          0x6666666666666666666666666666666666666666666666666666666666666658,
          121665, fieldPrime - 1,
          0x1000000000000000000000000000000014def9dea2f79cd65812631a5cf5d3ed, 8 ][c.toNat]? ∧
      decode (commandWord 0x07 d 0 0 c) = .ok (.fconst d c)) ∧
    (9 < c.toNat → (∃ t, exec (.fconst d c) s = .next t ∧ FailsWith 2 s.currentWord s t) ∧
      decode (commandWord 0x07 d 0 0 c) = .error .illegalOperand)

/-- R160: EQ is whether the residues are equal. -/
def Obligations.FeqComparesResidues : Prop :=
  ∀ (a b : RegIdx) (s : State), ∃ t, exec (.feq a b) s = .next t ∧ WritesEqOnly s t ∧
    (t.eq = true ↔ (s.reg a).toNat % fieldPrime = (s.reg b).toNat % fieldPrime) ∧
    decode (commandWord 0x08 0 a b 0) = .ok (.feq a b)

/-! ### The commands: modular_reducer -/

/-- R203, R204, R206: the canonical residues of 256 and 512 raw bits, mod p and mod ℓ. -/
def Obligations.ReductionsOfRawValues : Prop :=
  ∀ (d a : RegIdx) (s : State),
    (∃ t, exec (.fred d a) s = .next t ∧ WritesOnly [d] s t ∧
      (t.reg d).toNat = (s.reg a).toNat % fieldPrime ∧
      decode (commandWord 0x10 d a 0 0) = .ok (.fred d a)) ∧
    (a ≠ 31 → ∃ t, exec (.redp d a) s = .next t ∧ WritesOnly [d] s t ∧
      (t.reg d).toNat = ((s.reg a).toNat + 2 ^ 256 * (s.reg (a + 1)).toNat) % fieldPrime ∧
      decode (commandWord 0x11 d a 0 0) = .ok (.redp d a)) ∧
    (a ≠ 31 → ∃ t, exec (.redl d a) s = .next t ∧ WritesOnly [d] s t ∧
      (t.reg d).toNat = ((s.reg a).toNat + 2 ^ 256 * (s.reg (a + 1)).toNat) %
        (2 ^ 252 + 27742317777372353535851937790883648493) ∧
      decode (commandWord 0x12 d a 0 0) = .ok (.redl d a))

/-! ### The commands: modular_inverter -/

/-- R221: the power p − 2. -/
def Obligations.FinvIsThePower : Prop :=
  ∀ (d a : RegIdx) (s : State), ∃ t, exec (.finv d a) s = .next t ∧ WritesOnly [d] s t ∧
    (t.reg d).toNat = (s.reg a).toNat ^ (fieldPrime - 2) % fieldPrime ∧
    decode (commandWord 0x18 d a 0 0) = .ok (.finv d a)

/-- R222: x·FINV(x) mod p = 1 for x ≠ 0, and 0 gives 0; inv(1) = 1, inv(p−1) = p−1. -/
def Obligations.FinvIsTheInverse : Prop :=
  ∀ (d a : RegIdx) (s : State), ∃ t, exec (.finv d a) s = .next t ∧ WritesOnly [d] s t ∧
    ((s.reg a).toNat % fieldPrime ≠ 0 →
      (s.reg a).toNat * (t.reg d).toNat % fieldPrime = 1) ∧
    ((s.reg a).toNat % fieldPrime = 0 → t.reg d = 0) ∧
    ((s.reg a).toNat % fieldPrime = 1 → (t.reg d).toNat = 1) ∧
    ((s.reg a).toNat % fieldPrime = fieldPrime - 1 → (t.reg d).toNat = fieldPrime - 1)

/-- R223: the power 2^k, for every k in 0 to 2047. -/
def Obligations.Fpow2IsThePower : Prop :=
  ∀ (d a : RegIdx) (k : BitVec 11) (s : State), ∃ t, exec (.fpow2 d a k) s = .next t ∧
    WritesOnly [d] s t ∧ (t.reg d).toNat = (s.reg a).toNat ^ 2 ^ k.toNat % fieldPrime ∧
    decode (commandWord 0x19 d a 0 k) = .ok (.fpow2 d a k)

/-- R224: the powers (p − 5)/8 and 3; the second is x³, not x² (90_conflicts.md C1). -/
def Obligations.Pow22523IsThePair : Prop :=
  ∀ (d a : RegIdx) (s : State), d ≠ 31 →
    ∃ t, exec (.pow22523 d a) s = .next t ∧ WritesOnly [d, d + 1] s t ∧
      (t.reg d).toNat = (s.reg a).toNat ^ ((fieldPrime - 5) / 8) % fieldPrime ∧
      (t.reg (d + 1)).toNat = (s.reg a).toNat ^ 3 % fieldPrime ∧
      decode (commandWord 0x1A d a 0 0) = .ok (.pow22523 d a)

/-- R225, R135: the commands run one after another (log entry 11); the expansion of FINVCHAIN gives the
value FINV gives, for every input. -/
def Obligations.FermatChainIsFinv : Prop :=
  ∀ (d a t : RegIdx) (s : State), (Pseudo.finvchain d a t).admits = true →
    ∃ u v, execAll (expand (.finvchain d a t)) s = .next u ∧ exec (.finv d a) s = .next v ∧
      u.reg d = v.reg d

/-! ### The commands: field_sqrt_mod_p -/

/-- R241: the root the formula yields, or InvalidPoint, the word recorded being the one in flight (the
model's choice, log entry 4, where there is none). -/
def Obligations.SqrtratioFollowsTheFormula : Prop :=
  ∀ (d a b : RegIdx) (s : State),
    decode (commandWord 0x20 d a b 0) = .ok (.sqrtratio d a b) ∧
    (∀ r, sqrtFormula ((s.reg a).toNat % fieldPrime) ((s.reg b).toNat % fieldPrime) = some r →
      ∃ t, exec (.sqrtratio d a b) s = .next t ∧ WritesOnly [d] s t ∧ (t.reg d).toNat = r) ∧
    (sqrtFormula ((s.reg a).toNat % fieldPrime) ((s.reg b).toNat % fieldPrime) = none →
      ∃ t, exec (.sqrtratio d a b) s = .next t ∧ FailsWith 4 s.currentWord s t)

/-- R242, R241: SQRTRATIO writes a square root of u/v exactly when there is one, and otherwise ends with
InvalidPoint, the word recorded being the one in flight (log entry 4 where there is none). -/
def Obligations.SqrtratioFindsEveryRoot : Prop :=
  ∀ (d a b : RegIdx) (s : State),
    ((∃ r : ZMod fieldPrime, s.val b * r ^ 2 = s.val a) →
      ∃ t, exec (.sqrtratio d a b) s = .next t ∧ WritesOnly [d] s t ∧
        s.val b * t.val d ^ 2 = s.val a) ∧
    ((¬ ∃ r : ZMod fieldPrime, s.val b * r ^ 2 = s.val a) →
      ∃ t, exec (.sqrtratio d a b) s = .next t ∧ FailsWith 4 s.currentWord s t)

/-- R243: y ≥ p or no root ends with InvalidPoint; else P[d] is (x, y, 1, x·y mod p) with x the root the
formula yields, its sign set by bit 255. The word recorded is the one in flight (log entry 4 where there
is none). -/
def Obligations.DecompFollowsTheSteps : Prop :=
  ∀ (d a : RegIdx) (s : State), d.val % 4 = 0 →
    let b := (s.reg a).toNat / 2 ^ 255
    let y := (s.reg a).toNat % 2 ^ 255
    let root := sqrtFormula ((y * y + fieldPrime - 1) % fieldPrime) ((curveD * y * y + 1) % fieldPrime)
    decode (commandWord 0x21 d a 0 0) = .ok (.decomp d a) ∧
    (fieldPrime ≤ y ∨ root = none →
      ∃ t, exec (.decomp d a) s = .next t ∧ FailsWith 4 s.currentWord s t) ∧
    (y < fieldPrime → ∀ x, root = some x →
      ∃ t, exec (.decomp d a) s = .next t ∧ WritesOnly [d, d + 1, d + 2, d + 3] s t ∧
        (t.reg d).toNat = (if x % 2 ≠ b then (fieldPrime - x) % fieldPrime else x) ∧
        (t.reg (d + 1)).toNat = y ∧ t.reg (d + 2) = 1 ∧
        (t.reg (d + 3)).toNat = (t.reg d).toNat * y % fieldPrime)

/-- R245: the encoding of the affine point X/Z, Y/Z, or InvalidPoint exactly where Z ≡ 0, the word
recorded being the one in flight (log entry 4 where there is none). -/
def Obligations.PcompEncodesTheAffinePoint : Prop :=
  ∀ (d a : RegIdx) (s : State), a.val % 4 = 0 →
    decode (commandWord 0x22 d a 0 0) = .ok (.pcomp d a) ∧
    (s.val (a + 2) = 0 → ∃ t, exec (.pcomp d a) s = .next t ∧ FailsWith 4 s.currentWord s t) ∧
    (s.val (a + 2) ≠ 0 → ∃ t x y, exec (.pcomp d a) s = .next t ∧ WritesOnly [d] s t ∧
      x < fieldPrime ∧ y < fieldPrime ∧ (x : ZMod fieldPrime) * s.val (a + 2) = s.val a ∧
      (y : ZMod fieldPrime) * s.val (a + 2) = s.val (a + 1) ∧
      (t.reg d).toNat = y + 2 ^ 255 * (x % 2))

/-- R246: PCOMP(DECOMP(E)) = E for every encoding E that DECOMP accepts, except those with x = 0 (so
y² = 1) and the sign bit set. The two commands run one after another (log entry 11). -/
def Obligations.CompressOfDecompressIsTheEncoding : Prop :=
  ∀ (d a e : RegIdx) (s : State) (x y : ZMod fieldPrime), d.val % 4 = 0 →
    (s.reg a).toNat % 2 ^ 255 < fieldPrime →
    y = (((s.reg a).toNat % 2 ^ 255 : Nat) : ZMod fieldPrime) →
    -x ^ 2 + y ^ 2 = 1 + curveDF * x ^ 2 * y ^ 2 →
    ¬ (x = 0 ∧ (s.reg a).toNat / 2 ^ 255 = 1) →
    ∃ u, execAll [.decomp d a, .pcomp e d] s = .next u ∧ u.reg e = s.reg a

/-- R246: DECOMP(PCOMP(P)) gives the affine form of every P with Z ≢ 0 whose affine (x, y) is on the curve,
whatever T is. The two commands run one after another (log entry 11). -/
def Obligations.DecompressOfCompressIsTheAffinePoint : Prop :=
  ∀ (d a e : RegIdx) (s : State) (x y : ZMod fieldPrime), d.val % 4 = 0 → a.val % 4 = 0 →
    Projects (s.fieldPoint a) x y →
    ∃ u, execAll [.pcomp e a, .decomp d e] s = .next u ∧ HoldsPoint u d ⟨x, y, 1, x * y⟩

/-! ### The commands: edwards_point_adder -/

/-- R271. -/
def Obligations.PextExtendsThePair : Prop :=
  ∀ (d a : RegIdx) (s : State), d.val % 4 = 0 → a ≠ 31 →
    ∃ t, exec (.pext d a) s = .next t ∧ WritesOnly [d, d + 1, d + 2, d + 3] s t ∧
      HoldsPoint t d ⟨s.val a, s.val (a + 1), 1, s.val a * s.val (a + 1)⟩ ∧
      decode (commandWord 0x28 d a 0 0) = .ok (.pext d a)

/-- R272: the point normalised to Z = 1, or InvalidPoint exactly where Z ≡ 0, the word recorded being the
one in flight (log entry 4 where there is none). -/
def Obligations.PaffNormalises : Prop :=
  ∀ (d a : RegIdx) (s : State), d.val % 4 = 0 → a.val % 4 = 0 →
    decode (commandWord 0x29 d a 0 0) = .ok (.paff d a) ∧
    (s.val (a + 2) = 0 → ∃ t, exec (.paff d a) s = .next t ∧ FailsWith 4 s.currentWord s t) ∧
    (s.val (a + 2) ≠ 0 → ∃ t x y, exec (.paff d a) s = .next t ∧
      WritesOnly [d, d + 1, d + 2, d + 3] s t ∧ HoldsPoint t d ⟨x, y, 1, x * y⟩ ∧
      x * s.val (a + 2) = s.val a ∧ y * s.val (a + 2) = s.val (a + 1))

/-- R273, R275: PADD and PSUB by the formula, its F = 0 branch included, for whatever the registers
hold. -/
def Obligations.PaddPsubFollowTheFormula : Prop :=
  ∀ (d a b : RegIdx) (s : State), d.val % 4 = 0 → a.val % 4 = 0 → b.val % 4 = 0 →
    (∃ t, exec (.padd d a b) s = .next t ∧ WritesOnly [d, d + 1, d + 2, d + 3] s t ∧
      HoldsPoint t d (addFormula (s.fieldPoint a) (s.fieldPoint b)) ∧
      decode (commandWord 0x2A d a b 0) = .ok (.padd d a b)) ∧
    (∃ t, exec (.psub d a b) s = .next t ∧ WritesOnly [d, d + 1, d + 2, d + 3] s t ∧
      HoldsPoint t d (addFormula (s.fieldPoint a) (negFormula (s.fieldPoint b))) ∧
      decode (commandWord 0x2B d a b 0) = .ok (.psub d a b))

/-- R276, R277: PDBL and PNEG by their formulas, for whatever the registers hold. -/
def Obligations.PdblPnegFollowTheirFormulas : Prop :=
  ∀ (d a : RegIdx) (s : State), d.val % 4 = 0 → a.val % 4 = 0 →
    (∃ t, exec (.pdbl d a) s = .next t ∧ WritesOnly [d, d + 1, d + 2, d + 3] s t ∧
      HoldsPoint t d (doubleFormula (s.fieldPoint a)) ∧
      decode (commandWord 0x2C d a 0 0) = .ok (.pdbl d a)) ∧
    (∃ t, exec (.pneg d a) s = .next t ∧ WritesOnly [d, d + 1, d + 2, d + 3] s t ∧
      HoldsPoint t d (negFormula (s.fieldPoint a)) ∧
      decode (commandWord 0x2D d a 0 0) = .ok (.pneg d a))

/-- R278: EQ is whether X1·Z2 = X2·Z1 and Y1·Z2 = Y2·Z1 mod p. -/
def Obligations.PeqComparesProjectively : Prop :=
  ∀ (a b : RegIdx) (s : State), a.val % 4 = 0 → b.val % 4 = 0 →
    ∃ t, exec (.peq a b) s = .next t ∧ WritesEqOnly s t ∧
      (t.eq = true ↔ s.val a * s.val (b + 2) = s.val b * s.val (a + 2) ∧
        s.val (a + 1) * s.val (b + 2) = s.val (b + 1) * s.val (a + 2)) ∧
      decode (commandWord 0x2E 0 a b 0) = .ok (.peq a b)

/-- R273: `PADD pd, pa, pa` takes the F = 0 branch and equals `PDBL pd, pa`. -/
def Obligations.PaddOfAPointAndItselfIsPdbl : Prop :=
  ∀ (d a : RegIdx) (s : State), d.val % 4 = 0 → a.val % 4 = 0 →
    exec (.padd d a a) s = exec (.pdbl d a) s

/-- R274: for valid points, unless F = 0, PADD gives the group sum
((x1·y2 + y1·x2)/(1 + δ), (y1·y2 + x1·x2)/(1 − δ)), δ = d·x1·x2·y1·y2, in extended coordinates; its Z
is nonzero unless y1·y2 = x1·x2, the difference of order 4. -/
def Obligations.PaddIsTheGroupSum : Prop :=
  ∀ (d a b : RegIdx) (s : State) (x1 y1 x2 y2 : ZMod fieldPrime), d.val % 4 = 0 → a.val % 4 = 0 →
    b.val % 4 = 0 → Represents (s.fieldPoint a) x1 y1 → Represents (s.fieldPoint b) x2 y2 →
    x1 * y2 ≠ y1 * x2 →
    ∃ t, exec (.padd d a b) s = .next t ∧
      (let q := t.fieldPoint d
       let delta := curveDF * x1 * x2 * y1 * y2
       q.x * (1 + delta) = q.z * (x1 * y2 + y1 * x2) ∧
       q.y * (1 - delta) = q.z * (y1 * y2 + x1 * x2) ∧ q.t * q.z = q.x * q.y ∧
       (q.z = 0 ↔ y1 * y2 = x1 * x2))

/-- R276: PDBL gives the group double of every point on the curve with Z ≢ 0, whatever T is, as a valid
extended point. -/
def Obligations.PdblIsTheGroupDouble : Prop :=
  ∀ (d a : RegIdx) (s : State) (x y : ZMod fieldPrime), d.val % 4 = 0 → a.val % 4 = 0 →
    Projects (s.fieldPoint a) x y →
    ∃ t x3 y3, exec (.pdbl d a) s = .next t ∧ Represents (t.fieldPoint d) x3 y3 ∧
      x3 * (1 + curveDF * x ^ 2 * y ^ 2) = 2 * x * y ∧
      y3 * (1 - curveDF * x ^ 2 * y ^ 2) = y ^ 2 + x ^ 2
end

