-- ==== Sys2Proof/Laws/Field.lean ====
section
/-! SUPPORT. The arithmetic of the meanings as arithmetic of ZMod p: one law per operation, and the
power by squaring as the power it stands for. -/

namespace Sys2Proof.Machine

theorem fieldPrime_pos : 0 < fieldPrime := by decide +kernel

theorem fieldPrime_lt : fieldPrime < 2 ^ 255 := by decide +kernel

/-- `powMod` is the power: the model's way of computing R221 and R224. -/
theorem powMod_eq (m bits x e : Nat) (h : e < 2 ^ bits) : powMod m bits x e = x ^ e % m := by
  induction bits generalizing x e with
  | zero =>
    have : e = 0 := by simpa using h
    subst this; simp [powMod]
  | succ n ih =>
    have hh : e / 2 < 2 ^ n := by rw [pow_succ] at h; omega
    have hrest : powMod m n (x * x % m) (e / 2) = x ^ (2 * (e / 2)) % m := by
      rw [ih _ _ hh, ← Nat.pow_mod, ← pow_two, ← pow_mul]
    unfold powMod
    simp only [hrest]
    by_cases h2 : e % 2 = 1
    · have he : e = 2 * (e / 2) + 1 := by omega
      rw [if_pos h2, Nat.mul_mod, Nat.mod_mod, ← Nat.mul_mod]
      conv_rhs => rw [he]
      rw [pow_succ, mul_comm]
    · have he : 2 * (e / 2) = e := by omega
      rw [if_neg h2, he]

theorem powP_eq (x e : Nat) (h : e < 2 ^ 256) : powP x e = x ^ e % fieldPrime :=
  powMod_eq _ _ _ _ h

/-! ### Every result is canonical (R151) -/

theorem modP_lt (a : Int) : modP a < fieldPrime := by
  have hp : (0 : Int) < fieldPrime := by exact_mod_cast fieldPrime_pos
  have h1 := Int.emod_nonneg a hp.ne'
  have h2 := Int.emod_lt_of_pos a hp
  unfold modP; omega

theorem addP_lt (x y : Nat) : addP x y < fieldPrime := modP_lt _
theorem subP_lt (x y : Nat) : subP x y < fieldPrime := modP_lt _
theorem negP_lt (x : Nat) : negP x < fieldPrime := modP_lt _
theorem mulP_lt (x y : Nat) : mulP x y < fieldPrime := modP_lt _
theorem sqrP_lt (x : Nat) : sqrP x < fieldPrime := mulP_lt _ _

theorem powP_lt (x e : Nat) (h : e < 2 ^ 256) : powP x e < fieldPrime := by
  rw [powP_eq x e h]; exact Nat.mod_lt _ fieldPrime_pos

theorem invP_exp_lt : fieldPrime - 2 < 2 ^ 256 := by decide +kernel
theorem chain_exp_lt : (fieldPrime - 5) / 8 < 2 ^ 256 := by decide +kernel

theorem invP_lt (x : Nat) : invP x < fieldPrime := powP_lt x _ invP_exp_lt

theorem pow2P_lt (k x : Nat) (h : x < fieldPrime) : pow2P k x < fieldPrime := by
  induction k generalizing x with
  | zero => exact h
  | succ n ih => exact ih _ (sqrP_lt x)

/-! ### The operations on natural numbers -/

theorem modP_natCast (n : Nat) : modP (n : Int) = n % fieldPrime := by
  unfold modP; rw [← Int.natCast_mod]; exact Int.toNat_natCast _

theorem addP_eq (x y : Nat) : addP x y = (x + y) % fieldPrime := by
  unfold addP; rw [← Int.natCast_add, modP_natCast]

theorem mulP_eq (x y : Nat) : mulP x y = (x * y) % fieldPrime := by
  unfold mulP; rw [← Int.natCast_mul, modP_natCast]

theorem sqrP_eq (x : Nat) : sqrP x = (x * x) % fieldPrime := mulP_eq x x

theorem modP_eq_zero_iff (a : Int) : modP a = 0 ↔ (fieldPrime : Int) ∣ a := by
  have hp : (0 : Int) < fieldPrime := by exact_mod_cast fieldPrime_pos
  have h1 := Int.emod_nonneg a hp.ne'
  rw [Int.dvd_iff_emod_eq_zero]; unfold modP; omega

/-- R223: k squarings give the power 2^k. -/
theorem pow2P_eq (k x : Nat) (h : x < fieldPrime) : pow2P k x = x ^ 2 ^ k % fieldPrime := by
  induction k generalizing x with
  | zero => simpa [pow2P] using (Nat.mod_eq_of_lt h).symm
  | succ n ih =>
    rw [pow2P, ih _ (sqrP_lt x), sqrP_eq, ← Nat.pow_mod, ← pow_two, ← pow_mul, pow_succ, mul_comm 2]

/-! ### The operations in ZMod p -/

@[simp] theorem cast_modP (a : Int) : ((modP a : Nat) : ZMod fieldPrime) = (a : ZMod fieldPrime) := by
  have hp : (0 : Int) < fieldPrime := by exact_mod_cast fieldPrime_pos
  have h : ((modP a : Nat) : Int) = a % fieldPrime := by
    unfold modP; exact Int.toNat_of_nonneg (Int.emod_nonneg a hp.ne')
  have h2 : (((modP a : Nat) : Int) : ZMod fieldPrime) = (a : ZMod fieldPrime) := by
    rw [h]; exact ZMod.intCast_mod a fieldPrime
  exact_mod_cast h2

@[simp] theorem cast_addP (x y : Nat) : ((addP x y : Nat) : ZMod fieldPrime) = x + y := by
  simp [addP]

@[simp] theorem cast_subP (x y : Nat) : ((subP x y : Nat) : ZMod fieldPrime) = x - y := by
  simp [subP]

@[simp] theorem cast_negP (x : Nat) : ((negP x : Nat) : ZMod fieldPrime) = -x := by
  simp [negP]

@[simp] theorem cast_mulP (x y : Nat) : ((mulP x y : Nat) : ZMod fieldPrime) = x * y := by
  simp [mulP]

@[simp] theorem cast_sqrP (x : Nat) : ((sqrP x : Nat) : ZMod fieldPrime) = (x : ZMod fieldPrime) ^ 2 := by
  simp [sqrP, pow_two]

theorem cast_powP (x e : Nat) (h : e < 2 ^ 256) :
    ((powP x e : Nat) : ZMod fieldPrime) = (x : ZMod fieldPrime) ^ e := by
  rw [powP_eq x e h, ZMod.natCast_mod]; push_cast; rfl

/-- Canonical values are equal when they are equal in ZMod p. -/
theorem eq_of_cast_eq {x y : Nat} (hx : x < fieldPrime) (hy : y < fieldPrime)
    (h : (x : ZMod fieldPrime) = y) : x = y := by
  rw [ZMod.natCast_eq_natCast_iff'] at h
  rwa [Nat.mod_eq_of_lt hx, Nat.mod_eq_of_lt hy] at h

end Sys2Proof.Machine
end

