-- ==== Sys2Proof/Laws/Decode.lean ====
section
/-! SUPPORT. The fields of a command word are the ones it was made of, a word is made of its fields, and
the opcode map has one row per OP value. -/

namespace Sys2Proof

/-! ### Fields of a word (R121) -/

theorem opField_toNat (w : Word) : (opField w).toNat = w.toNat % 2 ^ 6 := by
  simp [opField]

theorem rdField_val (w : Word) : (rdField w).val = w.toNat / 2 ^ 6 % 2 ^ 5 := by
  simp [rdField, Nat.shiftRight_eq_div_pow]

theorem raField_val (w : Word) : (raField w).val = w.toNat / 2 ^ 11 % 2 ^ 5 := by
  simp [raField, Nat.shiftRight_eq_div_pow]

theorem rbField_val (w : Word) : (rbField w).val = w.toNat / 2 ^ 16 % 2 ^ 5 := by
  simp [rbField, Nat.shiftRight_eq_div_pow]

theorem immField_toNat (w : Word) : (immField w).toNat = w.toNat / 2 ^ 21 := by
  have := w.isLt
  simp [immField, Nat.shiftRight_eq_div_pow]; omega

theorem commandWord_toNat (op : BitVec 6) (rd ra rb : RegIdx) (k : BitVec 11) :
    (commandWord op rd ra rb k).toNat =
      k.toNat * 2 ^ 21 + rb.val * 2 ^ 16 + ra.val * 2 ^ 11 + rd.val * 2 ^ 6 + op.toNat := by
  have h1 := op.isLt; have h2 := k.isLt
  simp only [commandWord, BitVec.toNat_ofNat]; omega

@[simp] theorem opField_commandWord (op : BitVec 6) (rd ra rb : RegIdx) (k : BitVec 11) :
    opField (commandWord op rd ra rb k) = op := by
  apply BitVec.eq_of_toNat_eq
  rw [opField_toNat, commandWord_toNat]; have := op.isLt; omega

@[simp] theorem rdField_commandWord (op : BitVec 6) (rd ra rb : RegIdx) (k : BitVec 11) :
    rdField (commandWord op rd ra rb k) = rd := by
  apply Fin.ext
  rw [rdField_val, commandWord_toNat]; have := op.isLt; omega

@[simp] theorem raField_commandWord (op : BitVec 6) (rd ra rb : RegIdx) (k : BitVec 11) :
    raField (commandWord op rd ra rb k) = ra := by
  apply Fin.ext
  rw [raField_val, commandWord_toNat]; have := op.isLt; omega

@[simp] theorem rbField_commandWord (op : BitVec 6) (rd ra rb : RegIdx) (k : BitVec 11) :
    rbField (commandWord op rd ra rb k) = rb := by
  apply Fin.ext
  rw [rbField_val, commandWord_toNat]; have := op.isLt; omega

@[simp] theorem immField_commandWord (op : BitVec 6) (rd ra rb : RegIdx) (k : BitVec 11) :
    immField (commandWord op rd ra rb k) = k := by
  apply BitVec.eq_of_toNat_eq
  rw [immField_toNat, commandWord_toNat]; have := op.isLt; omega

/-- A word is the command word of its fields. -/
theorem commandWord_fields (w : Word) :
    commandWord (opField w) (rdField w) (raField w) (rbField w) (immField w) = w := by
  apply BitVec.eq_of_toNat_eq
  rw [commandWord_toNat, opField_toNat, rdField_val, raField_val, rbField_val, immField_toNat]
  have := w.isLt; omega

/-! ### The opcode map (R125, R133) -/

theorem opcodeMap_length : opcodeMap.length = 25 := by decide

/-- No two rows share an OP value. -/
theorem opcodeMap_ops_nodup : (opcodeMap.map Row.op).Nodup := by decide

/-- Decoding by the row found: the three cases of R126. -/
theorem decode_eq_of_findRow {w : Word} {r : Row} (h : findRow (opField w) = some r) :
    decode w = if r.accepts w then .ok (r.instr w) else .error .illegalOperand := by
  simp [decode, h]

theorem decode_eq_of_findRow_none {w : Word} (h : findRow (opField w) = none) :
    decode w = .error .illegalOpcode := by
  simp [decode, h]

theorem findRow_some {op : BitVec 6} {r : Row} (h : findRow op = some r) :
    r ∈ opcodeMap ∧ r.op = op := by
  exact ⟨List.mem_of_find?_eq_some h, by simpa using List.find?_some h⟩

end Sys2Proof
end

