-- ==== Sys2Proof/Laws/State.lean ====
section
/-! SUPPORT. One lemma per field of State and update of it, so that no later proof unfolds a record
update; and what the registers hold after each update. -/

namespace Sys2Proof.Machine

variable (s : State)

/-! ### writeReg -/

@[simp] theorem State.writeReg_ieDone (r : RegIdx) (v : FieldWord) :
    (s.writeReg r v).ieDone = s.ieDone := rfl
@[simp] theorem State.writeReg_ieErr (r : RegIdx) (v : FieldWord) :
    (s.writeReg r v).ieErr = s.ieErr := rfl
@[simp] theorem State.writeReg_busy (r : RegIdx) (v : FieldWord) :
    (s.writeReg r v).busy = s.busy := rfl
@[simp] theorem State.writeReg_done (r : RegIdx) (v : FieldWord) :
    (s.writeReg r v).done = s.done := rfl
@[simp] theorem State.writeReg_err (r : RegIdx) (v : FieldWord) :
    (s.writeReg r v).err = s.err := rfl
@[simp] theorem State.writeReg_eq (r : RegIdx) (v : FieldWord) : (s.writeReg r v).eq = s.eq := rfl
@[simp] theorem State.writeReg_errCode (r : RegIdx) (v : FieldWord) :
    (s.writeReg r v).errCode = s.errCode := rfl
@[simp] theorem State.writeReg_errSrc (r : RegIdx) (v : FieldWord) :
    (s.writeReg r v).errSrc = s.errSrc := rfl
@[simp] theorem State.writeReg_errInfo (r : RegIdx) (v : FieldWord) :
    (s.writeReg r v).errInfo = s.errInfo := rfl
@[simp] theorem State.writeReg_lastCmd (r : RegIdx) (v : FieldWord) :
    (s.writeReg r v).lastCmd = s.lastCmd := rfl
@[simp] theorem State.writeReg_inFlight (r : RegIdx) (v : FieldWord) :
    (s.writeReg r v).inFlight = s.inFlight := rfl
@[simp] theorem State.writeReg_events (r : RegIdx) (v : FieldWord) :
    (s.writeReg r v).events = s.events := rfl
@[simp] theorem State.writeReg_rdata (r : RegIdx) (v : FieldWord) :
    (s.writeReg r v).rdata = s.rdata := rfl
@[simp] theorem State.writeReg_draws (r : RegIdx) (v : FieldWord) :
    (s.writeReg r v).draws = s.draws := rfl

/-! ### writeNat -/

@[simp] theorem State.writeNat_ieDone (r : RegIdx) (v : Nat) :
    (s.writeNat r v).ieDone = s.ieDone := rfl
@[simp] theorem State.writeNat_ieErr (r : RegIdx) (v : Nat) :
    (s.writeNat r v).ieErr = s.ieErr := rfl
@[simp] theorem State.writeNat_busy (r : RegIdx) (v : Nat) : (s.writeNat r v).busy = s.busy := rfl
@[simp] theorem State.writeNat_done (r : RegIdx) (v : Nat) : (s.writeNat r v).done = s.done := rfl
@[simp] theorem State.writeNat_err (r : RegIdx) (v : Nat) : (s.writeNat r v).err = s.err := rfl
@[simp] theorem State.writeNat_eq (r : RegIdx) (v : Nat) : (s.writeNat r v).eq = s.eq := rfl
@[simp] theorem State.writeNat_errCode (r : RegIdx) (v : Nat) :
    (s.writeNat r v).errCode = s.errCode := rfl
@[simp] theorem State.writeNat_errSrc (r : RegIdx) (v : Nat) :
    (s.writeNat r v).errSrc = s.errSrc := rfl
@[simp] theorem State.writeNat_errInfo (r : RegIdx) (v : Nat) :
    (s.writeNat r v).errInfo = s.errInfo := rfl
@[simp] theorem State.writeNat_lastCmd (r : RegIdx) (v : Nat) :
    (s.writeNat r v).lastCmd = s.lastCmd := rfl
@[simp] theorem State.writeNat_inFlight (r : RegIdx) (v : Nat) :
    (s.writeNat r v).inFlight = s.inFlight := rfl
@[simp] theorem State.writeNat_events (r : RegIdx) (v : Nat) :
    (s.writeNat r v).events = s.events := rfl
@[simp] theorem State.writeNat_rdata (r : RegIdx) (v : Nat) :
    (s.writeNat r v).rdata = s.rdata := rfl
@[simp] theorem State.writeNat_draws (r : RegIdx) (v : Nat) :
    (s.writeNat r v).draws = s.draws := rfl

/-! ### writePair -/

@[simp] theorem State.writePair_ieDone (r : RegIdx) (v : Nat × Nat) :
    (s.writePair r v).ieDone = s.ieDone := rfl
@[simp] theorem State.writePair_ieErr (r : RegIdx) (v : Nat × Nat) :
    (s.writePair r v).ieErr = s.ieErr := rfl
@[simp] theorem State.writePair_busy (r : RegIdx) (v : Nat × Nat) :
    (s.writePair r v).busy = s.busy := rfl
@[simp] theorem State.writePair_done (r : RegIdx) (v : Nat × Nat) :
    (s.writePair r v).done = s.done := rfl
@[simp] theorem State.writePair_err (r : RegIdx) (v : Nat × Nat) :
    (s.writePair r v).err = s.err := rfl
@[simp] theorem State.writePair_eq (r : RegIdx) (v : Nat × Nat) : (s.writePair r v).eq = s.eq := rfl
@[simp] theorem State.writePair_errCode (r : RegIdx) (v : Nat × Nat) :
    (s.writePair r v).errCode = s.errCode := rfl
@[simp] theorem State.writePair_errSrc (r : RegIdx) (v : Nat × Nat) :
    (s.writePair r v).errSrc = s.errSrc := rfl
@[simp] theorem State.writePair_errInfo (r : RegIdx) (v : Nat × Nat) :
    (s.writePair r v).errInfo = s.errInfo := rfl
@[simp] theorem State.writePair_lastCmd (r : RegIdx) (v : Nat × Nat) :
    (s.writePair r v).lastCmd = s.lastCmd := rfl
@[simp] theorem State.writePair_inFlight (r : RegIdx) (v : Nat × Nat) :
    (s.writePair r v).inFlight = s.inFlight := rfl
@[simp] theorem State.writePair_events (r : RegIdx) (v : Nat × Nat) :
    (s.writePair r v).events = s.events := rfl
@[simp] theorem State.writePair_rdata (r : RegIdx) (v : Nat × Nat) :
    (s.writePair r v).rdata = s.rdata := rfl
@[simp] theorem State.writePair_draws (r : RegIdx) (v : Nat × Nat) :
    (s.writePair r v).draws = s.draws := rfl

/-! ### writePoint -/

@[simp] theorem State.writePoint_ieDone (r : RegIdx) (q : Point) :
    (s.writePoint r q).ieDone = s.ieDone := rfl
@[simp] theorem State.writePoint_ieErr (r : RegIdx) (q : Point) :
    (s.writePoint r q).ieErr = s.ieErr := rfl
@[simp] theorem State.writePoint_busy (r : RegIdx) (q : Point) :
    (s.writePoint r q).busy = s.busy := rfl
@[simp] theorem State.writePoint_done (r : RegIdx) (q : Point) :
    (s.writePoint r q).done = s.done := rfl
@[simp] theorem State.writePoint_err (r : RegIdx) (q : Point) :
    (s.writePoint r q).err = s.err := rfl
@[simp] theorem State.writePoint_eq (r : RegIdx) (q : Point) : (s.writePoint r q).eq = s.eq := rfl
@[simp] theorem State.writePoint_errCode (r : RegIdx) (q : Point) :
    (s.writePoint r q).errCode = s.errCode := rfl
@[simp] theorem State.writePoint_errSrc (r : RegIdx) (q : Point) :
    (s.writePoint r q).errSrc = s.errSrc := rfl
@[simp] theorem State.writePoint_errInfo (r : RegIdx) (q : Point) :
    (s.writePoint r q).errInfo = s.errInfo := rfl
@[simp] theorem State.writePoint_lastCmd (r : RegIdx) (q : Point) :
    (s.writePoint r q).lastCmd = s.lastCmd := rfl
@[simp] theorem State.writePoint_inFlight (r : RegIdx) (q : Point) :
    (s.writePoint r q).inFlight = s.inFlight := rfl
@[simp] theorem State.writePoint_events (r : RegIdx) (q : Point) :
    (s.writePoint r q).events = s.events := rfl
@[simp] theorem State.writePoint_rdata (r : RegIdx) (q : Point) :
    (s.writePoint r q).rdata = s.rdata := rfl
@[simp] theorem State.writePoint_draws (r : RegIdx) (q : Point) :
    (s.writePoint r q).draws = s.draws := rfl

/-! ### writeEq -/

@[simp] theorem State.writeEq_f (b : Bool) : (s.writeEq b).f = s.f := rfl
@[simp] theorem State.writeEq_ieDone (b : Bool) : (s.writeEq b).ieDone = s.ieDone := rfl
@[simp] theorem State.writeEq_ieErr (b : Bool) : (s.writeEq b).ieErr = s.ieErr := rfl
@[simp] theorem State.writeEq_busy (b : Bool) : (s.writeEq b).busy = s.busy := rfl
@[simp] theorem State.writeEq_done (b : Bool) : (s.writeEq b).done = s.done := rfl
@[simp] theorem State.writeEq_err (b : Bool) : (s.writeEq b).err = s.err := rfl
@[simp] theorem State.writeEq_eq (b : Bool) : (s.writeEq b).eq = b := rfl
@[simp] theorem State.writeEq_errCode (b : Bool) : (s.writeEq b).errCode = s.errCode := rfl
@[simp] theorem State.writeEq_errSrc (b : Bool) : (s.writeEq b).errSrc = s.errSrc := rfl
@[simp] theorem State.writeEq_errInfo (b : Bool) : (s.writeEq b).errInfo = s.errInfo := rfl
@[simp] theorem State.writeEq_lastCmd (b : Bool) : (s.writeEq b).lastCmd = s.lastCmd := rfl
@[simp] theorem State.writeEq_inFlight (b : Bool) : (s.writeEq b).inFlight = s.inFlight := rfl
@[simp] theorem State.writeEq_events (b : Bool) : (s.writeEq b).events = s.events := rfl
@[simp] theorem State.writeEq_rdata (b : Bool) : (s.writeEq b).rdata = s.rdata := rfl
@[simp] theorem State.writeEq_draws (b : Bool) : (s.writeEq b).draws = s.draws := rfl

/-! ### complete -/

@[simp] theorem State.complete_f : s.complete.f = s.f := rfl
@[simp] theorem State.complete_ieDone : s.complete.ieDone = s.ieDone := rfl
@[simp] theorem State.complete_ieErr : s.complete.ieErr = s.ieErr := rfl
@[simp] theorem State.complete_busy : s.complete.busy = false := rfl
@[simp] theorem State.complete_done : s.complete.done = true := rfl
@[simp] theorem State.complete_err : s.complete.err = s.err := rfl
@[simp] theorem State.complete_eq : s.complete.eq = s.eq := rfl
@[simp] theorem State.complete_errCode : s.complete.errCode = s.errCode := rfl
@[simp] theorem State.complete_errSrc : s.complete.errSrc = s.errSrc := rfl
@[simp] theorem State.complete_errInfo : s.complete.errInfo = s.errInfo := rfl
@[simp] theorem State.complete_lastCmd : s.complete.lastCmd = s.lastCmd := rfl
@[simp] theorem State.complete_inFlight : s.complete.inFlight = none := rfl
@[simp] theorem State.complete_events : s.complete.events = s.events := rfl
@[simp] theorem State.complete_rdata : s.complete.rdata = s.rdata := rfl
@[simp] theorem State.complete_draws : s.complete.draws = s.draws := rfl

/-! ### recordError -/

@[simp] theorem State.recordError_f (e : ErrorCode) (src : Bool) (info : Word) :
    (s.recordError e src info).f = s.f := by
  unfold State.recordError; split <;> simp_all
@[simp] theorem State.recordError_ieDone (e : ErrorCode) (src : Bool) (info : Word) :
    (s.recordError e src info).ieDone = s.ieDone := by
  unfold State.recordError; split <;> simp_all
@[simp] theorem State.recordError_ieErr (e : ErrorCode) (src : Bool) (info : Word) :
    (s.recordError e src info).ieErr = s.ieErr := by
  unfold State.recordError; split <;> simp_all
@[simp] theorem State.recordError_busy (e : ErrorCode) (src : Bool) (info : Word) :
    (s.recordError e src info).busy = s.busy := by
  unfold State.recordError; split <;> simp_all
@[simp] theorem State.recordError_done (e : ErrorCode) (src : Bool) (info : Word) :
    (s.recordError e src info).done = s.done := by
  unfold State.recordError; split <;> simp_all
@[simp] theorem State.recordError_err (e : ErrorCode) (src : Bool) (info : Word) :
    (s.recordError e src info).err = true := by
  unfold State.recordError; split <;> simp_all
@[simp] theorem State.recordError_eq (e : ErrorCode) (src : Bool) (info : Word) :
    (s.recordError e src info).eq = s.eq := by
  unfold State.recordError; split <;> simp_all
@[simp] theorem State.recordError_errCode (e : ErrorCode) (src : Bool) (info : Word) :
    (s.recordError e src info).errCode = if s.err then s.errCode else e.code := by
  unfold State.recordError; split <;> simp_all
@[simp] theorem State.recordError_errSrc (e : ErrorCode) (src : Bool) (info : Word) :
    (s.recordError e src info).errSrc = if s.err then s.errSrc else src := by
  unfold State.recordError; split <;> simp_all
@[simp] theorem State.recordError_errInfo (e : ErrorCode) (src : Bool) (info : Word) :
    (s.recordError e src info).errInfo = if s.err then s.errInfo else info := by
  unfold State.recordError; split <;> simp_all
@[simp] theorem State.recordError_lastCmd (e : ErrorCode) (src : Bool) (info : Word) :
    (s.recordError e src info).lastCmd = s.lastCmd := by
  unfold State.recordError; split <;> simp_all
@[simp] theorem State.recordError_inFlight (e : ErrorCode) (src : Bool) (info : Word) :
    (s.recordError e src info).inFlight = s.inFlight := by
  unfold State.recordError; split <;> simp_all
@[simp] theorem State.recordError_events (e : ErrorCode) (src : Bool) (info : Word) :
    (s.recordError e src info).events = s.events := by
  unfold State.recordError; split <;> simp_all
@[simp] theorem State.recordError_rdata (e : ErrorCode) (src : Bool) (info : Word) :
    (s.recordError e src info).rdata = s.rdata := by
  unfold State.recordError; split <;> simp_all
@[simp] theorem State.recordError_draws (e : ErrorCode) (src : Bool) (info : Word) :
    (s.recordError e src info).draws = s.draws := by
  unfold State.recordError; split <;> simp_all

/-! ### fail -/

@[simp] theorem State.fail_f (e : ErrorCode) : (s.fail e).f = s.f := by
  simp [State.fail]
@[simp] theorem State.fail_ieDone (e : ErrorCode) : (s.fail e).ieDone = s.ieDone := by
  simp [State.fail]
@[simp] theorem State.fail_ieErr (e : ErrorCode) : (s.fail e).ieErr = s.ieErr := by
  simp [State.fail]
@[simp] theorem State.fail_busy (e : ErrorCode) : (s.fail e).busy = false := by
  simp [State.fail]
@[simp] theorem State.fail_done (e : ErrorCode) : (s.fail e).done = true := by
  simp [State.fail]
@[simp] theorem State.fail_err (e : ErrorCode) : (s.fail e).err = true := by
  simp [State.fail]
@[simp] theorem State.fail_eq (e : ErrorCode) : (s.fail e).eq = s.eq := by
  simp [State.fail]
@[simp] theorem State.fail_errCode (e : ErrorCode) :
    (s.fail e).errCode = if s.err then s.errCode else e.code := by
  simp [State.fail]
@[simp] theorem State.fail_errSrc (e : ErrorCode) :
    (s.fail e).errSrc = if s.err then s.errSrc else false := by
  simp [State.fail]
@[simp] theorem State.fail_errInfo (e : ErrorCode) :
    (s.fail e).errInfo = if s.err then s.errInfo else s.currentWord := by
  simp [State.fail]
@[simp] theorem State.fail_lastCmd (e : ErrorCode) : (s.fail e).lastCmd = s.lastCmd := by
  simp [State.fail]
@[simp] theorem State.fail_inFlight (e : ErrorCode) : (s.fail e).inFlight = none := by
  simp [State.fail]
@[simp] theorem State.fail_events (e : ErrorCode) : (s.fail e).events = s.events := by
  simp [State.fail]
@[simp] theorem State.fail_rdata (e : ErrorCode) : (s.fail e).rdata = s.rdata := by
  simp [State.fail]
@[simp] theorem State.fail_draws (e : ErrorCode) : (s.fail e).draws = s.draws := by
  simp [State.fail]

/-! ### clearError -/

@[simp] theorem State.clearError_f : s.clearError.f = s.f := rfl
@[simp] theorem State.clearError_ieDone : s.clearError.ieDone = s.ieDone := rfl
@[simp] theorem State.clearError_ieErr : s.clearError.ieErr = s.ieErr := rfl
@[simp] theorem State.clearError_busy : s.clearError.busy = s.busy := rfl
@[simp] theorem State.clearError_done : s.clearError.done = s.done := rfl
@[simp] theorem State.clearError_err : s.clearError.err = false := rfl
@[simp] theorem State.clearError_eq : s.clearError.eq = s.eq := rfl
@[simp] theorem State.clearError_errCode : s.clearError.errCode = 0 := rfl
@[simp] theorem State.clearError_errSrc : s.clearError.errSrc = false := rfl
@[simp] theorem State.clearError_errInfo : s.clearError.errInfo = 0 := rfl
@[simp] theorem State.clearError_lastCmd : s.clearError.lastCmd = s.lastCmd := rfl
@[simp] theorem State.clearError_inFlight : s.clearError.inFlight = s.inFlight := rfl
@[simp] theorem State.clearError_events : s.clearError.events = s.events := rfl
@[simp] theorem State.clearError_rdata : s.clearError.rdata = s.rdata := rfl
@[simp] theorem State.clearError_draws : s.clearError.draws = s.draws := rfl

/-! ### accept -/

@[simp] theorem State.accept_f (w : Word) : (s.accept w).f = s.f := rfl
@[simp] theorem State.accept_ieDone (w : Word) : (s.accept w).ieDone = s.ieDone := rfl
@[simp] theorem State.accept_ieErr (w : Word) : (s.accept w).ieErr = s.ieErr := rfl
@[simp] theorem State.accept_busy (w : Word) : (s.accept w).busy = true := rfl
@[simp] theorem State.accept_done (w : Word) : (s.accept w).done = false := rfl
@[simp] theorem State.accept_err (w : Word) : (s.accept w).err = s.err := rfl
@[simp] theorem State.accept_eq (w : Word) : (s.accept w).eq = s.eq := rfl
@[simp] theorem State.accept_errCode (w : Word) : (s.accept w).errCode = s.errCode := rfl
@[simp] theorem State.accept_errSrc (w : Word) : (s.accept w).errSrc = s.errSrc := rfl
@[simp] theorem State.accept_errInfo (w : Word) : (s.accept w).errInfo = s.errInfo := rfl
@[simp] theorem State.accept_lastCmd (w : Word) : (s.accept w).lastCmd = w := rfl
@[simp] theorem State.accept_inFlight (w : Word) : (s.accept w).inFlight = some w := rfl
@[simp] theorem State.accept_events (w : Word) : (s.accept w).events = s.events := rfl
@[simp] theorem State.accept_rdata (w : Word) : (s.accept w).rdata = s.rdata := rfl
@[simp] theorem State.accept_draws (w : Word) : (s.accept w).draws = s.draws := rfl

/-! ### advance -/

@[simp] theorem State.advance_f : s.advance.f = s.f := rfl
@[simp] theorem State.advance_ieDone : s.advance.ieDone = s.ieDone := rfl
@[simp] theorem State.advance_ieErr : s.advance.ieErr = s.ieErr := rfl
@[simp] theorem State.advance_busy : s.advance.busy = s.busy := rfl
@[simp] theorem State.advance_done : s.advance.done = s.done := rfl
@[simp] theorem State.advance_err : s.advance.err = s.err := rfl
@[simp] theorem State.advance_eq : s.advance.eq = s.eq := rfl
@[simp] theorem State.advance_errCode : s.advance.errCode = s.errCode := rfl
@[simp] theorem State.advance_errSrc : s.advance.errSrc = s.errSrc := rfl
@[simp] theorem State.advance_errInfo : s.advance.errInfo = s.errInfo := rfl
@[simp] theorem State.advance_lastCmd : s.advance.lastCmd = s.lastCmd := rfl
@[simp] theorem State.advance_inFlight : s.advance.inFlight = s.inFlight := rfl
@[simp] theorem State.advance_events : s.advance.events = s.events.tail := rfl
@[simp] theorem State.advance_rdata : s.advance.rdata = none := rfl
@[simp] theorem State.advance_draws : s.advance.draws = s.draws := rfl

/-! ### answer -/

@[simp] theorem State.answer_f (w : Word) : (s.answer w).f = s.f := rfl
@[simp] theorem State.answer_ieDone (w : Word) : (s.answer w).ieDone = s.ieDone := rfl
@[simp] theorem State.answer_ieErr (w : Word) : (s.answer w).ieErr = s.ieErr := rfl
@[simp] theorem State.answer_busy (w : Word) : (s.answer w).busy = s.busy := rfl
@[simp] theorem State.answer_done (w : Word) : (s.answer w).done = s.done := rfl
@[simp] theorem State.answer_err (w : Word) : (s.answer w).err = s.err := rfl
@[simp] theorem State.answer_eq (w : Word) : (s.answer w).eq = s.eq := rfl
@[simp] theorem State.answer_errCode (w : Word) : (s.answer w).errCode = s.errCode := rfl
@[simp] theorem State.answer_errSrc (w : Word) : (s.answer w).errSrc = s.errSrc := rfl
@[simp] theorem State.answer_errInfo (w : Word) : (s.answer w).errInfo = s.errInfo := rfl
@[simp] theorem State.answer_lastCmd (w : Word) : (s.answer w).lastCmd = s.lastCmd := rfl
@[simp] theorem State.answer_inFlight (w : Word) : (s.answer w).inFlight = s.inFlight := rfl
@[simp] theorem State.answer_events (w : Word) : (s.answer w).events = s.events := rfl
@[simp] theorem State.answer_rdata (w : Word) : (s.answer w).rdata = some w := rfl
@[simp] theorem State.answer_draws (w : Word) : (s.answer w).draws = s.draws := rfl

/-! ### answerFree -/

@[simp] theorem State.answerFree_f : s.answerFree.f = s.f := rfl
@[simp] theorem State.answerFree_ieDone : s.answerFree.ieDone = s.ieDone := rfl
@[simp] theorem State.answerFree_ieErr : s.answerFree.ieErr = s.ieErr := rfl
@[simp] theorem State.answerFree_busy : s.answerFree.busy = s.busy := rfl
@[simp] theorem State.answerFree_done : s.answerFree.done = s.done := rfl
@[simp] theorem State.answerFree_err : s.answerFree.err = s.err := rfl
@[simp] theorem State.answerFree_eq : s.answerFree.eq = s.eq := rfl
@[simp] theorem State.answerFree_errCode : s.answerFree.errCode = s.errCode := rfl
@[simp] theorem State.answerFree_errSrc : s.answerFree.errSrc = s.errSrc := rfl
@[simp] theorem State.answerFree_errInfo : s.answerFree.errInfo = s.errInfo := rfl
@[simp] theorem State.answerFree_lastCmd : s.answerFree.lastCmd = s.lastCmd := rfl
@[simp] theorem State.answerFree_inFlight : s.answerFree.inFlight = s.inFlight := rfl
@[simp] theorem State.answerFree_events : s.answerFree.events = s.events := rfl
@[simp] theorem State.answerFree_rdata : s.answerFree.rdata = some (Config.freeRead s.draws) := rfl
@[simp] theorem State.answerFree_draws : s.answerFree.draws = s.draws + 1 := rfl

/-! ### resetBlock -/

@[simp] theorem State.resetBlock_f : s.resetBlock.f = Vector.replicate 32 0 := rfl
@[simp] theorem State.resetBlock_ieDone : s.resetBlock.ieDone = false := rfl
@[simp] theorem State.resetBlock_ieErr : s.resetBlock.ieErr = false := rfl
@[simp] theorem State.resetBlock_busy : s.resetBlock.busy = false := rfl
@[simp] theorem State.resetBlock_done : s.resetBlock.done = false := rfl
@[simp] theorem State.resetBlock_err : s.resetBlock.err = false := rfl
@[simp] theorem State.resetBlock_eq : s.resetBlock.eq = false := rfl
@[simp] theorem State.resetBlock_errCode : s.resetBlock.errCode = 0 := rfl
@[simp] theorem State.resetBlock_errSrc : s.resetBlock.errSrc = false := rfl
@[simp] theorem State.resetBlock_errInfo : s.resetBlock.errInfo = 0 := rfl
@[simp] theorem State.resetBlock_lastCmd : s.resetBlock.lastCmd = 0 := rfl
@[simp] theorem State.resetBlock_inFlight : s.resetBlock.inFlight = none := rfl
@[simp] theorem State.resetBlock_events : s.resetBlock.events = s.events := rfl
@[simp] theorem State.resetBlock_rdata : s.resetBlock.rdata = s.rdata := rfl
@[simp] theorem State.resetBlock_draws : s.resetBlock.draws = s.draws := rfl

/-! ### The registers -/

theorem State.reg_congr {s t : State} (h : t.f = s.f) (r : RegIdx) : t.reg r = s.reg r := by
  simp [State.reg, h]

theorem State.reg_writeReg (d r : RegIdx) (v : FieldWord) :
    (s.writeReg d v).reg r = if r = d then v else s.reg r := by
  simp only [State.reg, State.writeReg, Fin.getElem_fin, Vector.getElem_set, Fin.val_inj,
    eq_comm (a := d)]

@[simp] theorem State.reg_writeReg_self (d : RegIdx) (v : FieldWord) :
    (s.writeReg d v).reg d = v := by simp [State.reg_writeReg]

theorem State.reg_writeReg_of_ne {d r : RegIdx} (h : r ≠ d) (v : FieldWord) :
    (s.writeReg d v).reg r = s.reg r := by simp [State.reg_writeReg, h]

theorem State.reg_writeNat (d r : RegIdx) (v : Nat) :
    (s.writeNat d v).reg r = if r = d then BitVec.ofNat 256 v else s.reg r :=
  s.reg_writeReg d r _

@[simp] theorem State.reg_writeEq (b : Bool) (r : RegIdx) : (s.writeEq b).reg r = s.reg r := rfl
@[simp] theorem State.reg_complete (r : RegIdx) : s.complete.reg r = s.reg r := rfl
@[simp] theorem State.reg_clearError (r : RegIdx) : s.clearError.reg r = s.reg r := rfl
@[simp] theorem State.reg_accept (w : Word) (r : RegIdx) : (s.accept w).reg r = s.reg r := rfl
@[simp] theorem State.reg_advance (r : RegIdx) : s.advance.reg r = s.reg r := rfl
@[simp] theorem State.reg_answer (w : Word) (r : RegIdx) : (s.answer w).reg r = s.reg r := rfl
@[simp] theorem State.reg_answerFree (r : RegIdx) : s.answerFree.reg r = s.reg r := rfl
@[simp] theorem State.reg_recordError (e : ErrorCode) (src : Bool) (info : Word) (r : RegIdx) :
    (s.recordError e src info).reg r = s.reg r := State.reg_congr (by simp) r
@[simp] theorem State.reg_fail (e : ErrorCode) (r : RegIdx) : (s.fail e).reg r = s.reg r :=
  State.reg_congr (by simp) r
@[simp] theorem State.reg_resetBlock (r : RegIdx) : s.resetBlock.reg r = 0 := by
  simp [State.reg]

/-- R224: what a pair write leaves in each register. -/
theorem State.reg_writePair (d r : RegIdx) (v : Nat × Nat) :
    (s.writePair d v).reg r =
      if r = d + 1 then BitVec.ofNat 256 v.2
      else if r = d then BitVec.ofNat 256 v.1 else s.reg r := by
  simp [State.writePair, State.reg_writeNat]

/-- R16: what a point write leaves in each register. -/
theorem State.reg_writePoint (d r : RegIdx) (q : Point) :
    (s.writePoint d q).reg r =
      if r = d + 3 then BitVec.ofNat 256 q.t
      else if r = d + 2 then BitVec.ofNat 256 q.z
      else if r = d + 1 then BitVec.ofNat 256 q.y
      else if r = d then BitVec.ofNat 256 q.x else s.reg r := by
  simp [State.writePoint, State.reg_writeNat]

end Sys2Proof.Machine
end

