-- ==== Sys2Proof/Laws/Ops.lean ====
section
/-! SUPPORT. What each shared operation can do, said once, and from that what executing a command and
taking a step can do. Later proofs cite these lemmas and do not unfold the operations. -/

namespace Sys2Proof.Machine

variable {s t : State}

/-! ### Completion and errors -/

/-- R56: completion, apart from F, EQ and the error record. -/
theorem completes_complete (h : t.lastCmd = s.lastCmd) (h1 : t.ieDone = s.ieDone)
    (h2 : t.ieErr = s.ieErr) (h3 : t.events = s.events) (h4 : t.rdata = s.rdata)
    (h5 : t.draws = s.draws) : Completes s t.complete :=
  ⟨rfl, rfl, rfl, h, h1, h2, h3, h4, h5⟩

/-- R311: the error record after `recordError`. -/
theorem recorded_recordError (s : State) (e : ErrorCode) (src : Bool) (info : Word) :
    Recorded e.code src info s (s.recordError e src info) := by
  refine ⟨by simp, fun h => by simp [h], fun h => by simp [h]⟩

/-- R312: what a command error leaves. -/
theorem failsWith_fail (s : State) (e : ErrorCode) : FailsWith e.code s.currentWord s (s.fail e) :=
  ⟨⟨by simp, by simp, by simp, by simp, by simp, by simp, by simp, by simp, by simp⟩,
    fun r _ => by simp, by simp, by simp, fun h => by simp [h], fun h => by simp [h]⟩

/-! ### Commands that write registers -/

theorem writesOnly_nil (s : State) : WritesOnly [] s s.complete :=
  ⟨completes_complete rfl rfl rfl rfl rfl rfl, ⟨rfl, rfl, rfl, rfl⟩, rfl, fun _ _ => rfl⟩

theorem writesOnly_writeReg (s : State) (d : RegIdx) (v : FieldWord) :
    WritesOnly [d] s (s.writeReg d v).complete :=
  ⟨completes_complete rfl rfl rfl rfl rfl rfl, ⟨rfl, rfl, rfl, rfl⟩, rfl, fun r hr => by
    simpa using State.reg_writeReg_of_ne s (by simpa using hr) v⟩

theorem writesOnly_writeNat (s : State) (d : RegIdx) (v : Nat) :
    WritesOnly [d] s (s.writeNat d v).complete := writesOnly_writeReg s d _

theorem writesOnly_writePair (s : State) (d : RegIdx) (v : Nat × Nat) :
    WritesOnly [d, d + 1] s (s.writePair d v).complete :=
  ⟨completes_complete rfl rfl rfl rfl rfl rfl, ⟨rfl, rfl, rfl, rfl⟩, rfl, fun r hr => by
    simp only [List.mem_cons, List.not_mem_nil, or_false, not_or] at hr
    simp [State.reg_writePair, hr]⟩

theorem writesOnly_writePoint (s : State) (d : RegIdx) (q : Point) :
    WritesOnly [d, d + 1, d + 2, d + 3] s (s.writePoint d q).complete :=
  ⟨completes_complete rfl rfl rfl rfl rfl rfl, ⟨rfl, rfl, rfl, rfl⟩, rfl, fun r hr => by
    simp only [List.mem_cons, List.not_mem_nil, or_false, not_or] at hr
    simp [State.reg_writePoint, hr]⟩

theorem writesEqOnly_writeEq (s : State) (b : Bool) : WritesEqOnly s (s.writeEq b).complete :=
  ⟨completes_complete rfl rfl rfl rfl rfl rfl, ⟨rfl, rfl, rfl, rfl⟩, fun _ _ => rfl⟩

theorem WritesOnly.completes {ds} (h : WritesOnly ds s t) : Completes s t := h.1
theorem WritesEqOnly.completes (h : WritesEqOnly s t) : Completes s t := h.1
theorem FailsWith.completes {c w} (h : FailsWith c w s t) : Completes s t := h.1

/-! ### The registers a point write holds -/

/-- The four indices of a point or the two of a pair are apart (indices count modulo 32). -/
theorem regIdx_add_ne (d : RegIdx) :
    d ≠ d + 1 ∧ d ≠ d + 2 ∧ d ≠ d + 3 ∧ d + 1 ≠ d + 2 ∧ d + 1 ≠ d + 3 ∧ d + 2 ≠ d + 3 := by
  revert d; decide

theorem writePoint_regs (s : State) (d : RegIdx) (q : Point) :
    (s.writePoint d q).reg d = BitVec.ofNat 256 q.x ∧
      (s.writePoint d q).reg (d + 1) = BitVec.ofNat 256 q.y ∧
      (s.writePoint d q).reg (d + 2) = BitVec.ofNat 256 q.z ∧
      (s.writePoint d q).reg (d + 3) = BitVec.ofNat 256 q.t := by
  obtain ⟨h1, h2, h3, h4, h5, h6⟩ := regIdx_add_ne d
  refine ⟨?_, ?_, ?_, ?_⟩ <;>
    simp [State.reg_writePoint, h1, h2, h3, h4, h5, h6]

theorem writePair_regs (s : State) (d : RegIdx) (v : Nat × Nat) :
    (s.writePair d v).reg d = BitVec.ofNat 256 v.1 ∧
      (s.writePair d v).reg (d + 1) = BitVec.ofNat 256 v.2 := by
  have h := (regIdx_add_ne d).1
  constructor <;> simp [State.reg_writePair, h]

/-- The value a register holds after a canonical value has been written. -/
theorem toNat_ofNat_of_lt {v : Nat} (h : v < 2 ^ 256) : (BitVec.ofNat 256 v).toNat = v := by
  rw [BitVec.toNat_ofNat]; exact Nat.mod_eq_of_lt h

/-! ### Executing a command -/

@[simp] theorem guardOperands_true (s : State) (run : Host.Outcome State Fault Refusal) :
    guardOperands true s run = run := rfl

@[simp] theorem guardOperands_false (s : State) (run : Host.Outcome State Fault Refusal) :
    guardOperands false s run = .next (s.fail .illegalOperand) := rfl

@[simp] theorem finishOr_some (e : ErrorCode) (s t : State) :
    finishOr e s (some t) = .next t.complete := rfl

@[simp] theorem finishOr_none (e : ErrorCode) (s : State) :
    finishOr e s none = .next (s.fail e) := rfl

/-- A command ends well: it writes its destinations, or EQ if it is a compare, and nothing else. -/
def Succeeds (i : Instr) (s t : State) : Prop :=
  (isCompare i = true ∧ WritesEqOnly s t) ∨ (isCompare i = false ∧ WritesOnly (dests i) s t)

/-- What every meaning does: it answers a next state, having ended well or with an error. -/
def Runs (i : Instr) (s : State) (o : Host.Outcome State Fault Refusal) : Prop :=
  ∃ t, o = .next t ∧ (Succeeds i s t ∨ ∃ e, t = s.fail e)

theorem runs_failWith (i : Instr) (s : State) (e : ErrorCode) : Runs i s (failWith e s) :=
  ⟨_, rfl, .inr ⟨e, rfl⟩⟩

theorem runs_guardOperands {i : Instr} {run} (ok : Bool) (h : Runs i s run) :
    Runs i s (guardOperands ok s run) := by
  cases ok
  · exact runs_failWith i s .illegalOperand
  · exact h

theorem runs_finish {i : Instr} (hc : isCompare i = false) (h : WritesOnly (dests i) s t.complete) :
    Runs i s (finish t) := ⟨_, rfl, .inl (.inr ⟨hc, h⟩)⟩

theorem runs_finishOr_map {α : Type} {i : Instr} {e : ErrorCode} (o : Option α) (g : α → State)
    (hc : isCompare i = false) (h : ∀ a, WritesOnly (dests i) s (g a).complete) :
    Runs i s (finishOr e s (o.map g)) := by
  cases o with
  | none => exact runs_failWith i s e
  | some a => exact runs_finish hc (h a)

theorem runs_finishEq {i : Instr} (hc : isCompare i = true) (b : Bool) :
    Runs i s (finish (s.writeEq b)) := ⟨_, rfl, .inl (.inl ⟨hc, writesEqOnly_writeEq s b⟩)⟩

/-- Inversion of `exec`: whatever the command and the state. -/
theorem exec_runs (i : Instr) (s : State) : Runs i s (exec i s) := by
  cases i with
  | nop => exact runs_finish rfl (writesOnly_nil s)
  | fadd d a b => exact runs_finish rfl (writesOnly_writeNat s d _)
  | fsub d a b => exact runs_finish rfl (writesOnly_writeNat s d _)
  | fneg d a => exact runs_finish rfl (writesOnly_writeNat s d _)
  | fmul d a b => exact runs_finish rfl (writesOnly_writeNat s d _)
  | fsqr d a => exact runs_finish rfl (writesOnly_writeNat s d _)
  | fmov d a => exact runs_finish rfl (writesOnly_writeReg s d _)
  | fconst d c =>
    rw [exec, execFconst]
    refine runs_finishOr_map (constTable c.toNat) (s.writeReg d) rfl ?_
    exact fun v => writesOnly_writeReg s d v
  | feq a b => exact runs_finishEq rfl _
  | fred d a => exact runs_finish rfl (writesOnly_writeNat s d _)
  | redp d a => exact runs_guardOperands _ (runs_finish rfl (writesOnly_writeNat s d _))
  | redl d a => exact runs_guardOperands _ (runs_finish rfl (writesOnly_writeNat s d _))
  | finv d a => exact runs_finish rfl (writesOnly_writeNat s d _)
  | fpow2 d a k => exact runs_finish rfl (writesOnly_writeNat s d _)
  | pow22523 d a => exact runs_guardOperands _ (runs_finish rfl (writesOnly_writePair s d _))
  | sqrtratio d a b =>
    rw [exec, execSqrtratio]
    refine runs_finishOr_map (sqrtRatio (s.red a) (s.red b)) (s.writeNat d) rfl ?_
    exact fun v => writesOnly_writeNat s d v
  | decomp d a =>
    rw [exec, execDecomp]
    refine runs_guardOperands _ (runs_finishOr_map (decompress (s.reg a)) (s.writePoint d) rfl ?_)
    exact fun q => writesOnly_writePoint s d q
  | pcomp d a =>
    rw [exec, execPcomp]
    refine runs_guardOperands _ (runs_finishOr_map (toAffine (s.point a))
      (fun q => s.writeNat d (compress q.1 q.2)) rfl ?_)
    exact fun q => writesOnly_writeNat s d _
  | pext d a => exact runs_guardOperands _ (runs_finish rfl (writesOnly_writePoint s d _))
  | paff d a =>
    rw [exec, execPaff]
    refine runs_guardOperands _ (runs_finishOr_map (toAffine (s.point a))
      (fun q => s.writePoint d (extend q.1 q.2)) rfl ?_)
    exact fun q => writesOnly_writePoint s d _
  | padd d a b => exact runs_guardOperands _ (runs_finish rfl (writesOnly_writePoint s d _))
  | psub d a b => exact runs_guardOperands _ (runs_finish rfl (writesOnly_writePoint s d _))
  | pdbl d a => exact runs_guardOperands _ (runs_finish rfl (writesOnly_writePoint s d _))
  | pneg d a => exact runs_guardOperands _ (runs_finish rfl (writesOnly_writePoint s d _))
  | peq a b => exact runs_guardOperands _ (runs_finishEq rfl _)

/-- Every command completes (R56, R310). -/
theorem exec_completes {i : Instr} (h : exec i s = .next t) : Completes s t := by
  obtain ⟨u, hu, hs | ⟨e, rfl⟩⟩ := exec_runs i s
  · obtain rfl : t = u := by simpa [hu] using h.symm
    rcases hs with ⟨-, hs⟩ | ⟨-, hs⟩
    · exact hs.completes
    · exact hs.completes
  · obtain rfl : t = s.fail e := by simpa [hu] using h.symm
    exact (failsWith_fail s e).completes

/-! ### The step -/

/-- What the core's turn can do: nothing is in flight, or the command in flight ends. -/
theorem coreStep_cases (s : State) :
    (s.inFlight = none ∧ coreStep s = .next s) ∨
      (∃ w i, s.inFlight = some w ∧ decode w = .ok i ∧ coreStep s = exec i s) ∨
      (∃ w e, s.inFlight = some w ∧ decode w = .error e ∧ coreStep s = .next (s.failDecode e)) := by
  unfold coreStep
  cases hw : s.inFlight with
  | none => exact .inl ⟨rfl, rfl⟩
  | some w =>
    cases hd : decode w with
    | ok i => exact .inr (.inl ⟨w, i, rfl, hd, by simp [hd]⟩)
    | error e => exact .inr (.inr ⟨w, e, rfl, hd, by simp [hd]⟩)

/-- A decode error is a command error (R313, R314). -/
theorem failDecode_eq_fail (s : State) (e : DecodeError) : ∃ c, s.failDecode e = s.fail c := by
  cases e
  · exact ⟨.illegalOpcode, rfl⟩
  · exact ⟨.illegalOperand, rfl⟩

/-- Inversion of the core's turn: nothing in flight, or a command has ended, well or with an error. -/
theorem coreStep_next {s : State} : ∃ t, coreStep s = .next t ∧
    ((s.inFlight = none ∧ t = s) ∨
      ∃ w, s.inFlight = some w ∧
        ((∃ i, decode w = .ok i ∧ Succeeds i s t) ∨ ∃ e, t = s.fail e)) := by
  rcases coreStep_cases s with ⟨h, h2⟩ | ⟨w, i, hw, hd, h⟩ | ⟨w, e, hw, hd, h⟩
  · exact ⟨s, h2, .inl ⟨h, rfl⟩⟩
  · obtain ⟨t, ht, hs | he⟩ := exec_runs i s
    · exact ⟨t, h.trans ht, .inr ⟨w, hw, .inl ⟨i, hd, hs⟩⟩⟩
    · exact ⟨t, h.trans ht, .inr ⟨w, hw, .inr he⟩⟩
  · obtain ⟨c, hc⟩ := failDecode_eq_fail s e
    exact ⟨_, h, .inr ⟨w, hw, .inr ⟨c, hc⟩⟩⟩

/-- Inversion of the step. -/
theorem step_cases (s : State) :
    (CoreIsNext s ∧ step s = coreStep s.advance) ∨
      (∃ tr, s.events.head? = some (.host tr) ∧ step s = .next (s.advance.transact tr)) ∨
      (s.events.head? = some .reset ∧ step s = .next s.advance.resetBlock) ∨
      (s.events.head? = some .unstable ∧ step s = .refused .unstableTransaction) := by
  unfold step CoreIsNext
  cases h : s.events with
  | nil => simp
  | cons e es => cases e <;> simp

end Sys2Proof.Machine
end

