-- ==== Sys2Proof/Laws/Window.lean ====
section
/-! SUPPORT. The register window: which offsets name which register, and what a word of a field register
reads and writes. -/

namespace Sys2Proof.Machine

/-! ### Offsets (R87, R91) -/

theorem align_toNat (off : Offset) : (align off).toNat = off.toNat / 4 * 4 := by
  have h : ∀ x : Offset, (x &&& 0xFFC).toNat = x.toNat / 4 * 4 := by decide +kernel
  exact h off

theorem align_eq_iff (off : Offset) (n : Nat) (h : n < 1024) :
    align off = BitVec.ofNat 12 (n * 4) ↔ off.toNat / 4 = n := by
  rw [← BitVec.toNat_inj, align_toNat, BitVec.toNat_ofNat]; omega

theorem align_congr {off off' : Offset} (h : off.toNat / 4 = off'.toNat / 4) :
    align off = align off' := by
  apply BitVec.eq_of_toNat_eq; rw [align_toNat, align_toNat, h]

/-- R87: word j of F[i] lies at 0x100 + 32·i + 4·j. -/
theorem fieldSlot_align (off : Offset) (i : RegIdx) (j : Fin 8)
    (h : off.toNat / 4 = 0x40 + 8 * i.val + j.val) : fieldSlot (align off) = some (i, j.val) := by
  have hi := i.isLt; have hj := j.isLt
  unfold fieldSlot
  rw [align_toNat, h, if_pos (by omega)]
  have h1 : (Fin.ofNat 32 (((0x40 + 8 * i.val + j.val) * 4 - 0x100) / 32) : RegIdx) = i := by
    apply Fin.ext; rw [Fin.val_ofNat]; omega
  have h2 : ((0x40 + 8 * i.val + j.val) * 4 - 0x100) % 32 / 4 = j.val := by omega
  rw [h1, h2]

/-- R82: outside 0x100 to 0x4FF no field register lies. -/
theorem fieldSlot_align_none (off : Offset) (h : off.toNat / 4 < 0x40 ∨ 0x140 ≤ off.toNat / 4) :
    fieldSlot (align off) = none := by
  unfold fieldSlot
  rw [align_toNat, if_neg (by omega)]

/-! ### Words of a register (R87) -/

theorem getLsbD_getWord (v : FieldWord) (j b : Nat) (h : b < 32) :
    (getWord v j).getLsbD b = v.getLsbD (32 * j + b) := by
  simp [getWord, h]

theorem getLsbD_setWord (v : FieldWord) (j : Nat) (w : Word) (b : Nat) (hb : b < 256) :
    (setWord v j w).getLsbD b = if b / 32 = j then w.getLsbD (b % 32) else v.getLsbD b := by
  have hmask : ∀ k, (0xFFFFFFFF : FieldWord).getLsbD k = decide (k < 32) := by
    intro k
    have : (0xFFFFFFFF : FieldWord) = (BitVec.allOnes 32).setWidth 256 := by decide
    rw [this, BitVec.getLsbD_setWidth, BitVec.getLsbD_allOnes, ← Bool.decide_and]
    exact decide_eq_decide.2 (by omega)
  simp only [setWord, BitVec.getLsbD_or, BitVec.getLsbD_and, BitVec.getLsbD_not,
    BitVec.getLsbD_shiftLeft, hmask, BitVec.getLsbD_setWidth]
  by_cases h1 : b < 32 * j
  · have : b / 32 ≠ j := by omega
    simp [h1, this, hb]
  · by_cases h2 : b / 32 = j
    · have h3 : b - 32 * j < 32 := by omega
      have h4 : b % 32 = b - 32 * j := by omega
      simp [h1, h2, h3, h4, hb]; omega
    · have h3 : ¬ b - 32 * j < 32 := by omega
      have h4 : w.getLsbD (b - 32 * j) = false := BitVec.getLsbD_of_ge _ _ (by omega)
      simp [h1, h2, h3, h4, hb]

end Sys2Proof.Machine
end

