-- ==== Sys2Proof/Laws/Step.lean ====
section
/-! SUPPORT. The step by the input it takes, and each bus transaction by the word its offset lies in. -/

namespace Sys2Proof.Machine

/-- The core's turn. -/
theorem step_of_coreIsNext {s : State} (h : CoreIsNext s) : step s = coreStep s.advance := by
  unfold step
  cases hh : s.events with
  | nil => rfl
  | cons e es =>
    rcases h with h | h
    · simp [hh] at h
    · simp only [hh, List.head?_cons, Option.some.injEq] at h
      subst h; rfl

/-- The host's turn. -/
theorem step_of_host {s : State} {tr : Transaction} (h : s.events.head? = some (.host tr)) :
    step s = .next (s.advance.transact tr) := by
  unfold step
  cases hh : s.events with
  | nil => simp [hh] at h
  | cons e es =>
    simp only [hh, List.head?_cons, Option.some.injEq] at h
    subst h; rfl

/-- The core's turn with a word in flight that decodes. -/
theorem coreStep_of_decode {s : State} {w : Word} {i : Instr} (hw : s.inFlight = some w)
    (hd : decode w = .ok i) : coreStep s = exec i s := by
  simp [coreStep, hw, hd]

/-- The core's turn with a word in flight that does not decode. -/
theorem coreStep_of_error {s : State} {w : Word} {e : DecodeError} (hw : s.inFlight = some w)
    (hd : decode w = .error e) : coreStep s = .next (s.failDecode e) := by
  simp [coreStep, hw, hd]

/-- The core's turn takes nothing off the inputs. -/
theorem coreStep_events {s t : State} (h : coreStep s = .next t) : t.events = s.events := by
  obtain ⟨u, hu, h2⟩ := coreStep_next (s := s)
  obtain rfl : t = u := by simpa [hu] using h.symm
  rcases h2 with ⟨-, rfl⟩ | ⟨w, -, ⟨i, -, ⟨-, h⟩ | ⟨-, h⟩⟩ | ⟨e, rfl⟩⟩
  · rfl
  · exact h.1.events
  · exact h.1.events
  · simp

/-! ### Transactions by word (R91) -/

theorem busWrite_eq (s : State) (off : Offset) (v : Word) :
    s.busWrite off v =
      if off.toNat / 4 = 3 then s.writeCtrl v
      else if off.toNat / 4 = 4 then s.writeStatus v
      else if off.toNat / 4 = 5 then s.writeCmd v
      else
        match fieldSlot (align off) with
        | some (i, j) => s.writeField (align off) i j v
        | none => s := by
  have h3 : align off = 0x00C ↔ off.toNat / 4 = 3 := align_eq_iff off 3 (by omega)
  have h4 : align off = 0x010 ↔ off.toNat / 4 = 4 := align_eq_iff off 4 (by omega)
  have h5 : align off = 0x014 ↔ off.toNat / 4 = 5 := align_eq_iff off 5 (by omega)
  simp only [State.busWrite, h3, h4, h5]
  all_goals rfl

theorem controlRead_align (s : State) (off : Offset) :
    s.controlRead (align off) =
      if off.toNat / 4 = 0 then idWord
      else if off.toNat / 4 = 1 then versionWord
      else if off.toNat / 4 = 2 then paramWord
      else if off.toNat / 4 = 3 then s.ctrlWord
      else if off.toNat / 4 = 4 then s.statusWord
      else if off.toNat / 4 = 5 then s.lastCmd
      else if off.toNat / 4 = 6 then s.errCodeWord
      else if off.toNat / 4 = 7 then s.errInfo
      else 0 := by
  have h0 : align off = 0x000 ↔ off.toNat / 4 = 0 := align_eq_iff off 0 (by omega)
  have h1 : align off = 0x004 ↔ off.toNat / 4 = 1 := align_eq_iff off 1 (by omega)
  have h2 : align off = 0x008 ↔ off.toNat / 4 = 2 := align_eq_iff off 2 (by omega)
  have h3 : align off = 0x00C ↔ off.toNat / 4 = 3 := align_eq_iff off 3 (by omega)
  have h4 : align off = 0x010 ↔ off.toNat / 4 = 4 := align_eq_iff off 4 (by omega)
  have h5 : align off = 0x014 ↔ off.toNat / 4 = 5 := align_eq_iff off 5 (by omega)
  have h6 : align off = 0x018 ↔ off.toNat / 4 = 6 := align_eq_iff off 6 (by omega)
  have h7 : align off = 0x01C ↔ off.toNat / 4 = 7 := align_eq_iff off 7 (by omega)
  simp only [State.controlRead, h0, h1, h2, h3, h4, h5, h6, h7]

/-- No transaction touches the inputs to come. -/
theorem transact_events (s : State) (tr : Transaction) : (s.transact tr).events = s.events := by
  cases tr with
  | write off v =>
    rw [State.transact, busWrite_eq]
    split_ifs
    · unfold State.writeCtrl; split_ifs <;> rfl
    · unfold State.writeStatus; dsimp only; split_ifs <;> rfl
    · unfold State.writeCmd; split_ifs <;> simp
    · split
      · unfold State.writeField; split_ifs <;> simp
      · rfl
  | read off =>
    rw [State.transact, State.busRead]
    split
    · split_ifs <;> simp
    · simp

/-- What an accepted command can be, of a transaction that leaves a word in flight (R49). -/
theorem transact_inFlight (s : State) (tr : Transaction) :
    (s.transact tr).inFlight = s.inFlight ∨
      (s.busy = false ∧ ∃ off w, tr = .write off w ∧ off.toNat / 4 = 5 ∧ s.transact tr = s.accept w) ∨
      (∃ off v, tr = .write off v ∧ off.toNat / 4 = 3 ∧ v.getLsbD 31 = true ∧
        s.transact tr = s.resetBlock) := by
  cases tr with
  | write off v =>
    rw [State.transact, busWrite_eq]
    split_ifs with h3 h4 h5
    · unfold State.writeCtrl
      split_ifs with h
      · exact .inr (.inr ⟨off, v, rfl, h3, h, rfl⟩)
      · exact .inl rfl
    · left; unfold State.writeStatus; dsimp only; split_ifs <;> rfl
    · unfold State.writeCmd
      split_ifs with h
      · left; simp
      · exact .inr (.inl ⟨by simpa using h, off, v, rfl, h5, rfl⟩)
    · left
      split
      · unfold State.writeField; split_ifs <;> simp
      · rfl
  | read off =>
    left
    rw [State.transact, State.busRead]
    split
    · split_ifs <;> simp
    · simp

/-! ### Operand checks (R129 to R131) -/

theorem isPoint_eq (r : RegIdx) : isPoint r = decide (r.val % 4 = 0) := by
  simp [isPoint, beq_eq_decide]

theorem isPair_eq (r : RegIdx) : isPair r = decide (r.val ≠ 31) := by revert r; decide

theorem constTable_eq_none (c : Nat) : constTable c = none ↔ 9 < c := by
  simp [constTable]; omega

end Sys2Proof.Machine
end

