-- ==== Sys2Proof/Laws/Commands.lean ====
section
/-! SUPPORT. What the shared operations of the commands compute: bounds, and their values in ZMod p. -/

namespace Sys2Proof.Machine

/-! ### Residues -/

theorem red_lt (s : State) (r : RegIdx) : s.red r < fieldPrime := Nat.mod_lt _ fieldPrime_pos

@[simp] theorem cast_red (s : State) (r : RegIdx) : ((s.red r : Nat) : ZMod fieldPrime) = s.val r := by
  simp [State.red, State.val, ZMod.natCast_mod]

theorem one_lt_fieldPrime : 1 < fieldPrime := by decide +kernel

theorem toNat_ofNat_fieldPrime {v : Nat} (h : v < fieldPrime) : (BitVec.ofNat 256 v).toNat = v :=
  toNat_ofNat_of_lt (by have := fieldPrime_lt; omega)

/-- A canonical value stands for 0 exactly when it is 0. -/
theorem cast_eq_zero_iff {v : Nat} (h : v < fieldPrime) : (v : ZMod fieldPrime) = 0 ↔ v = 0 := by
  constructor
  · intro hv
    exact eq_of_cast_eq h fieldPrime_pos (by simpa using hv)
  · rintro rfl; simp

theorem reg_writeNat_self (s : State) (d : RegIdx) {v : Nat} (h : v < fieldPrime) :
    ((s.writeNat d v).reg d).toNat = v := by
  rw [State.writeNat, State.reg_writeReg, if_pos rfl, toNat_ofNat_fieldPrime h]

/-! ### Points -/

/-- All four coordinates canonical. -/
def Point.Reduced (q : Point) : Prop :=
  q.x < fieldPrime ∧ q.y < fieldPrime ∧ q.z < fieldPrime ∧ q.t < fieldPrime

/-- The point over GF(p). -/
def Point.cast (q : Point) : FieldPoint := ⟨q.x, q.y, q.z, q.t⟩

theorem point_reduced (s : State) (a : RegIdx) : (s.point a).Reduced :=
  ⟨red_lt _ _, red_lt _ _, red_lt _ _, red_lt _ _⟩

@[simp] theorem point_cast (s : State) (a : RegIdx) : (s.point a).cast = s.fieldPoint a := by
  simp [Point.cast, State.point, State.fieldPoint]

/-- What P[d] holds after it is written. -/
theorem holdsPoint_writePoint (s : State) (d : RegIdx) {q : Point} (h : q.Reduced) :
    HoldsPoint (s.writePoint d q).complete d q.cast := by
  obtain ⟨hx, hy, hz, ht⟩ := h
  obtain ⟨h0, h1, h2, h3⟩ := writePoint_regs s d q
  have key : ∀ r v, (s.writePoint d q).reg r = BitVec.ofNat 256 v → v < fieldPrime →
      (s.writePoint d q).complete.val r = v ∧ Canonical ((s.writePoint d q).complete.reg r) := by
    intro r v hr hv
    have : (s.writePoint d q).complete.reg r = BitVec.ofNat 256 v := hr
    constructor
    · rw [State.val, this, toNat_ofNat_fieldPrime hv]
    · rw [Canonical, this, toNat_ofNat_fieldPrime hv]; exact hv
  obtain ⟨a0, b0⟩ := key _ _ h0 hx
  obtain ⟨a1, b1⟩ := key _ _ h1 hy
  obtain ⟨a2, b2⟩ := key _ _ h2 hz
  obtain ⟨a3, b3⟩ := key _ _ h3 ht
  refine ⟨a0, a1, a2, a3, fun r hr => ?_⟩
  simp only [List.mem_cons, List.not_mem_nil, or_false] at hr
  rcases hr with rfl | rfl | rfl | rfl <;> assumption

/-- P[d] holds one point at most. -/
theorem fieldPoint_of_holdsPoint {s : State} {d : RegIdx} {q : FieldPoint} (h : HoldsPoint s d q) :
    s.fieldPoint d = q := by
  obtain ⟨h0, h1, h2, h3, -⟩ := h
  simp [State.fieldPoint, h0, h1, h2, h3]

theorem extend_reduced {x y : Nat} (hx : x < fieldPrime) (hy : y < fieldPrime) :
    (extend x y).Reduced := ⟨hx, hy, one_lt_fieldPrime, mulP_lt _ _⟩

theorem extend_cast (x y : Nat) : (extend x y).cast = ⟨x, y, 1, x * y⟩ := by
  simp [Point.cast, extend]

theorem doublePoint_reduced (q : Point) : (doublePoint q).Reduced :=
  ⟨mulP_lt _ _, mulP_lt _ _, mulP_lt _ _, mulP_lt _ _⟩

theorem doublePoint_cast (q : Point) : (doublePoint q).cast = doubleFormula q.cast := by
  simp [Point.cast, doublePoint, doubleFormula]

theorem addPoint_reduced (q r : Point) : (addPoint q r).Reduced := by
  unfold addPoint
  dsimp only
  split_ifs
  · exact doublePoint_reduced q
  · exact ⟨mulP_lt _ _, mulP_lt _ _, mulP_lt _ _, mulP_lt _ _⟩

/-- R273, the F of the formula. -/
def addF (q r : FieldPoint) : ZMod fieldPrime := (q.y + q.x) * (r.y - r.x) - (q.y - q.x) * (r.y + r.x)

/-- The F = 0 branch of the formula. -/
theorem addFormula_of_eq {q r : FieldPoint} (h : addF q r = 0) : addFormula q r = doubleFormula q :=
  if_pos h

/-- The other branch. -/
theorem addFormula_of_ne {q r : FieldPoint} (h : addF q r ≠ 0) :
    addFormula q r =
      ⟨(2 * q.t * r.z + 2 * q.z * r.t) * addF q r,
        ((q.y + q.x) * (r.y - r.x) + (q.y - q.x) * (r.y + r.x)) * (2 * q.t * r.z - 2 * q.z * r.t),
        addF q r * ((q.y + q.x) * (r.y - r.x) + (q.y - q.x) * (r.y + r.x)),
        (2 * q.t * r.z + 2 * q.z * r.t) * (2 * q.t * r.z - 2 * q.z * r.t)⟩ :=
  if_neg h

theorem addPoint_cast (q r : Point) : (addPoint q r).cast = addFormula q.cast r.cast := by
  have hF : subP (mulP (addP q.y q.x) (subP r.y r.x)) (mulP (subP q.y q.x) (addP r.y r.x)) = 0 ↔
      addF q.cast r.cast = 0 := by
    rw [← cast_eq_zero_iff (subP_lt _ _)]; simp [addF, Point.cast]
  unfold addPoint
  dsimp only
  by_cases h : addF q.cast r.cast = 0
  · rw [if_pos (hF.2 h), addFormula_of_eq h]; exact doublePoint_cast q
  · rw [if_neg (mt hF.1 h), addFormula_of_ne h]; simp [Point.cast, addF, mul_assoc]

theorem negPoint_reduced {q : Point} (h : q.Reduced) : (negPoint q).Reduced :=
  ⟨negP_lt _, h.2.1, h.2.2.1, negP_lt _⟩

theorem negPoint_cast (q : Point) : (negPoint q).cast = negFormula q.cast := by
  simp [Point.cast, negPoint, negFormula]

/-! ### Roots and affine points -/

theorem sqrtRatio_lt {u v r : Nat} (h : sqrtRatio u v = some r) : r < fieldPrime := by
  unfold sqrtRatio at h
  dsimp only at h
  split_ifs at h <;> (rw [Option.some.injEq] at h; rw [← h]; exact mulP_lt _ _)

theorem toAffine_lt {q : Point} {v : Nat × Nat} (h : toAffine q = some v) :
    v.1 < fieldPrime ∧ v.2 < fieldPrime := by
  unfold toAffine at h
  dsimp only at h
  split_ifs at h
  rw [Option.some.injEq] at h
  rw [← h]
  exact ⟨mulP_lt _ _, mulP_lt _ _⟩

theorem applySign_lt {x : Nat} (b : Bool) (h : x < fieldPrime) : applySign b x < fieldPrime := by
  unfold applySign
  split_ifs
  · exact negP_lt x
  · exact h

theorem decompress_reduced {wv : FieldWord} {q : Point} (h : decompress wv = some q) : q.Reduced := by
  unfold decompress at h
  dsimp only at h
  split_ifs at h with hy
  cases hs : sqrtRatio (subP (sqrP (encodedY wv)) 1) (addP (mulP curveD (sqrP (encodedY wv))) 1) with
  | none => rw [hs] at h; simp at h
  | some x =>
    rw [hs, Option.map_some, Option.some.injEq] at h
    rw [← h]
    exact extend_reduced (applySign_lt _ (sqrtRatio_lt hs)) (Nat.lt_of_not_le hy)

/-- The power in ZMod p that R241 takes. -/
theorem cast_sqrtCandidate (u v : Nat) :
    ((sqrtCandidate u v : Nat) : ZMod fieldPrime) =
      (u : ZMod fieldPrime) * v ^ 3 * (u * v ^ 7) ^ ((fieldPrime - 5) / 8) := by
  have h3 : 3 < 2 ^ 256 := by norm_num
  have h7 : 7 < 2 ^ 256 := by norm_num
  rw [sqrtCandidate, cast_mulP, cast_mulP, cast_powP v 3 h3, chainP, cast_powP _ _ chain_exp_lt,
    cast_mulP, cast_powP v 7 h7]

/-- R241 for canonical operands: what the root found squares to, or that neither sign fits. -/
theorem sqrtRatio_cases {u v : Nat} (hu : u < fieldPrime) :
    (v * (sqrtCandidate u v : ZMod fieldPrime) ^ 2 = u ∧ sqrtRatio u v = some (sqrtCandidate u v)) ∨
      (v * (sqrtCandidate u v : ZMod fieldPrime) ^ 2 ≠ u ∧
        v * (sqrtCandidate u v : ZMod fieldPrime) ^ 2 = -u ∧
        sqrtRatio u v = some (mulP (sqrtCandidate u v) sqrtM1)) ∨
      (v * (sqrtCandidate u v : ZMod fieldPrime) ^ 2 ≠ u ∧
        v * (sqrtCandidate u v : ZMod fieldPrime) ^ 2 ≠ -u ∧ sqrtRatio u v = none) := by
  have e : ((mulP v (sqrP (sqrtCandidate u v)) : Nat) : ZMod fieldPrime) =
      v * (sqrtCandidate u v : ZMod fieldPrime) ^ 2 := by rw [cast_mulP, cast_sqrP]
  have h1 : mulP v (sqrP (sqrtCandidate u v)) = u ↔
      v * (sqrtCandidate u v : ZMod fieldPrime) ^ 2 = u := by
    rw [← e]
    exact ⟨fun h => by rw [h], fun h => eq_of_cast_eq (mulP_lt _ _) hu h⟩
  have h2 : mulP v (sqrP (sqrtCandidate u v)) = negP u ↔
      v * (sqrtCandidate u v : ZMod fieldPrime) ^ 2 = -u := by
    rw [← e, ← cast_negP]
    exact ⟨fun h => by rw [h], fun h => eq_of_cast_eq (mulP_lt _ _) (negP_lt _) h⟩
  unfold sqrtRatio
  dsimp only
  by_cases c1 : mulP v (sqrP (sqrtCandidate u v)) = u
  · exact .inl ⟨h1.1 c1, if_pos c1⟩
  · by_cases c2 : mulP v (sqrP (sqrtCandidate u v)) = negP u
    · exact .inr (.inl ⟨mt h1.2 c1, h2.1 c2, by rw [if_neg c1, if_pos c2]⟩)
    · exact .inr (.inr ⟨mt h1.2 c1, mt h2.2 c2, by rw [if_neg c1, if_neg c2]⟩)

/-- R10: √−1. -/
theorem sqrtM1_sq : (sqrtM1 : ZMod fieldPrime) ^ 2 = -1 := by
  have h : (sqrtM1 * sqrtM1 + 1) % fieldPrime = 0 := by decide +kernel
  have h2 : ((sqrtM1 * sqrtM1 + 1 : Nat) : ZMod fieldPrime) = 0 :=
    (ZMod.natCast_eq_zero_iff _ _).2 (Nat.dvd_of_mod_eq_zero h)
  push_cast at h2
  linear_combination h2

/-- R241: 0/v has the root 0. -/
theorem sqrtFormula_zero_left (v : Nat) : sqrtFormula 0 v = some 0 := by
  have h : ∀ e, 0 * v ^ 3 * (0 * v ^ 7) ^ e % fieldPrime = 0 := by intro e; simp
  unfold sqrtFormula
  simp only [h]
  simp

/-- R241: u/0 has no root where u is not 0. -/
theorem sqrtFormula_zero_right {u : Nat} (hu : u % fieldPrime ≠ 0) : sqrtFormula u 0 = none := by
  have h : ∀ e, u * 0 ^ 3 * (u * 0 ^ 7) ^ e % fieldPrime = 0 := by intro e; simp
  unfold sqrtFormula
  simp only [h]
  rw [if_neg (by simpa using Ne.symm hu), if_neg (by simpa using hu)]

/-- R222 in ZMod p. -/
theorem cast_invP (x : Nat) : ((invP x : Nat) : ZMod fieldPrime) = (x : ZMod fieldPrime) ^ (fieldPrime - 2) :=
  cast_powP x _ invP_exp_lt

theorem constTable_canonical {c : Nat} {v : FieldWord} (h : constTable c = some v) : Canonical v := by
  have hc : c < 10 := by
    by_contra hc
    rw [(constTable_eq_none c).2 (by omega)] at h; simp at h
  have key : ∀ c : Fin 10, (constTable c).all (fun v => decide (v.toNat < fieldPrime)) = true := by
    decide +kernel
  have := key ⟨c, hc⟩
  rw [h, Option.all_some, decide_eq_true_eq] at this
  exact this

end Sys2Proof.Machine
end

