-- ==== Sys2Proof/Laws/Cycles.lean ====
section
/-! SUPPORT. A clock cycle by what is in flight before and after the host's part of it. -/

namespace Sys2Proof.Machine

variable {lat : Word → Nat} {m : Clocked} {w : Word} {host : Option Transaction}

/-- A command is in flight and the host's part is no reset: the core has its part. -/
theorem cycle_of_inFlight (hi : m.s.inFlight = some w)
    (hh : (hostPart m.s host).inFlight = some w) :
    cycle lat ⟨true, host⟩ m = corePart (hostPart m.s host) m.left := by
  simp [cycle, hi, hh]

/-- A command is accepted in this cycle (R371). -/
theorem cycle_of_accept (hi : m.s.inFlight = none) (hh : (hostPart m.s host).inFlight = some w) :
    cycle lat ⟨true, host⟩ m = .next ⟨hostPart m.s host, lat w⟩ := by
  simp [cycle, hi, hh]

/-- Nothing is in flight after the host's part. -/
theorem cycle_of_none (hh : (hostPart m.s host).inFlight = none) :
    cycle lat ⟨true, host⟩ m = .next ⟨hostPart m.s host, 0⟩ := by
  cases hi : m.s.inFlight <;> simp [cycle, hi, hh]

/-- A reset wins over everything (R350). -/
theorem cycle_of_reset :
    cycle lat ⟨false, host⟩ m = .next ⟨({ m.s with rdata := none } : State).resetBlock, 0⟩ := rfl

theorem corePart_wait {t : State} {left : Nat} (h : ¬ left ≤ 1) :
    corePart t left = .next ⟨t, left - 1⟩ := by
  simp [corePart, h]

/-- The completion falls in this cycle. -/
theorem corePart_done {t u : State} {left : Nat} (h : left ≤ 1) (hu : coreStep t = .next u) :
    corePart t left = .next ⟨u, 0⟩ := by
  simp [corePart, h, hu]

/-- With a word in flight the core's turn completes it (R56). -/
theorem coreStep_completes {t : State} (hw : t.inFlight = some w) :
    ∃ u, coreStep t = .next u ∧ u.busy = false ∧ u.done = true ∧ u.inFlight = none := by
  obtain ⟨u, hu, h⟩ := coreStep_next (s := t)
  refine ⟨u, hu, ?_⟩
  rcases h with ⟨h, -⟩ | ⟨w', -, ⟨i, -, ⟨-, h⟩ | ⟨-, h⟩⟩ | ⟨e, rfl⟩⟩
  · simp [hw] at h
  · exact ⟨h.1.busy, h.1.done, h.1.inFlight⟩
  · exact ⟨h.1.busy, h.1.done, h.1.inFlight⟩
  · simp

/-- While BUSY = 1 the host's part of a cycle leaves BUSY and the word in flight, or resets. -/
theorem hostPart_of_busy {s : State} (hb : s.busy = true) :
    ((hostPart s host).busy = true ∧ (hostPart s host).inFlight = s.inFlight) ∨
      ∃ off v, host = some (.write off v) ∧ off.toNat / 4 = 3 ∧ v.getLsbD 31 = true ∧
        hostPart s host = ({ s with rdata := none } : State).resetBlock := by
  have hb' : ({ s with rdata := none } : State).busy = true := hb
  rcases host with _ | tr
  · exact .inl ⟨hb, rfl⟩
  · cases tr with
    | write off v =>
      simp only [hostPart, State.transact]
      rw [busWrite_eq]
      split_ifs with h3 h4 h5
      · unfold State.writeCtrl
        split_ifs with h
        · exact .inr ⟨off, v, rfl, h3, h, rfl⟩
        · exact .inl ⟨hb, rfl⟩
      · left; unfold State.writeStatus; dsimp only; split_ifs <;> exact ⟨hb, rfl⟩
      · left; rw [State.writeCmd, if_pos hb']; exact ⟨by simpa using hb, by simp⟩
      · left; split
        · rw [State.writeField, if_pos hb']; exact ⟨by simpa using hb, by simp⟩
        · exact ⟨hb, rfl⟩
    | read off =>
      left
      simp only [hostPart, State.transact, State.busRead]
      split
      · rw [if_pos hb']; exact ⟨hb, rfl⟩
      · exact ⟨hb, rfl⟩

end Sys2Proof.Machine
end

