-- ==== Sys2Proof/Laws/PerInstr.lean ====
section
/-! SUPPORT. Per command: the fields of its encoded word. -/

namespace Sys2Proof.Laws.EncodedFields

/-- The fields of the encoding are an OP of the opcode map, whose row makes the command of them again
(R121, R125). -/
def Statement (i : Instr) : Prop :=
  ∃ r, findRow (opField (encode i)) = some r ∧ r.instr (encode i) = i

theorem nop : Statement (.nop) :=
  ⟨_, by rw [encode, opField_commandWord]; rfl, by simp [Row.instr]⟩

theorem fadd (d a b : RegIdx) : Statement (.fadd d a b) :=
  ⟨_, by rw [encode, opField_commandWord]; rfl, by simp [Row.instr, encode]⟩

theorem fsub (d a b : RegIdx) : Statement (.fsub d a b) :=
  ⟨_, by rw [encode, opField_commandWord]; rfl, by simp [Row.instr, encode]⟩

theorem fneg (d a : RegIdx) : Statement (.fneg d a) :=
  ⟨_, by rw [encode, opField_commandWord]; rfl, by simp [Row.instr, encode]⟩

theorem fmul (d a b : RegIdx) : Statement (.fmul d a b) :=
  ⟨_, by rw [encode, opField_commandWord]; rfl, by simp [Row.instr, encode]⟩

theorem fsqr (d a : RegIdx) : Statement (.fsqr d a) :=
  ⟨_, by rw [encode, opField_commandWord]; rfl, by simp [Row.instr, encode]⟩

theorem fmov (d a : RegIdx) : Statement (.fmov d a) :=
  ⟨_, by rw [encode, opField_commandWord]; rfl, by simp [Row.instr, encode]⟩

theorem fconst (d : RegIdx) (c : BitVec 11) : Statement (.fconst d c) :=
  ⟨_, by rw [encode, opField_commandWord]; rfl, by simp [Row.instr, encode]⟩

theorem feq (a b : RegIdx) : Statement (.feq a b) :=
  ⟨_, by rw [encode, opField_commandWord]; rfl, by simp [Row.instr, encode]⟩

theorem fred (d a : RegIdx) : Statement (.fred d a) :=
  ⟨_, by rw [encode, opField_commandWord]; rfl, by simp [Row.instr, encode]⟩

theorem redp (d a : RegIdx) : Statement (.redp d a) :=
  ⟨_, by rw [encode, opField_commandWord]; rfl, by simp [Row.instr, encode]⟩

theorem redl (d a : RegIdx) : Statement (.redl d a) :=
  ⟨_, by rw [encode, opField_commandWord]; rfl, by simp [Row.instr, encode]⟩

theorem finv (d a : RegIdx) : Statement (.finv d a) :=
  ⟨_, by rw [encode, opField_commandWord]; rfl, by simp [Row.instr, encode]⟩

theorem fpow2 (d a : RegIdx) (k : BitVec 11) : Statement (.fpow2 d a k) :=
  ⟨_, by rw [encode, opField_commandWord]; rfl, by simp [Row.instr, encode]⟩

theorem pow22523 (d a : RegIdx) : Statement (.pow22523 d a) :=
  ⟨_, by rw [encode, opField_commandWord]; rfl, by simp [Row.instr, encode]⟩

theorem sqrtratio (d a b : RegIdx) : Statement (.sqrtratio d a b) :=
  ⟨_, by rw [encode, opField_commandWord]; rfl, by simp [Row.instr, encode]⟩

theorem decomp (d a : RegIdx) : Statement (.decomp d a) :=
  ⟨_, by rw [encode, opField_commandWord]; rfl, by simp [Row.instr, encode]⟩

theorem pcomp (d a : RegIdx) : Statement (.pcomp d a) :=
  ⟨_, by rw [encode, opField_commandWord]; rfl, by simp [Row.instr, encode]⟩

theorem pext (d a : RegIdx) : Statement (.pext d a) :=
  ⟨_, by rw [encode, opField_commandWord]; rfl, by simp [Row.instr, encode]⟩

theorem paff (d a : RegIdx) : Statement (.paff d a) :=
  ⟨_, by rw [encode, opField_commandWord]; rfl, by simp [Row.instr, encode]⟩

theorem padd (d a b : RegIdx) : Statement (.padd d a b) :=
  ⟨_, by rw [encode, opField_commandWord]; rfl, by simp [Row.instr, encode]⟩

theorem psub (d a b : RegIdx) : Statement (.psub d a b) :=
  ⟨_, by rw [encode, opField_commandWord]; rfl, by simp [Row.instr, encode]⟩

theorem pdbl (d a : RegIdx) : Statement (.pdbl d a) :=
  ⟨_, by rw [encode, opField_commandWord]; rfl, by simp [Row.instr, encode]⟩

theorem pneg (d a : RegIdx) : Statement (.pneg d a) :=
  ⟨_, by rw [encode, opField_commandWord]; rfl, by simp [Row.instr, encode]⟩

theorem peq (a b : RegIdx) : Statement (.peq a b) :=
  ⟨_, by rw [encode, opField_commandWord]; rfl, by simp [Row.instr, encode]⟩

end Sys2Proof.Laws.EncodedFields
end

