-- ==== Sys2Proof/Laws/Prime.lean ====
section
/-! SUPPORT. p = 2²⁵⁵ − 19 (00_scope.md R9) is prime, by Lucas's test down to small primes:
for each prime a generator and the prime factors of its predecessor, the powers computed by `powMod`. -/

namespace Sys2Proof.Machine

/-- The part of Lucas's test that is computed. -/
def lucasCheck (p g : Nat) (qs : List Nat) : Bool :=
  decide (1 < p) && decide (p < 2 ^ 256) && qs.prod == p - 1 && powMod p 256 g (p - 1) == 1 &&
    qs.all (fun q => powMod p 256 g ((p - 1) / q) != 1)

theorem prime_of_lucasCheck (p g : Nat) (qs : List Nat) (hq : ∀ q ∈ qs, q.Prime)
    (h : lucasCheck p g qs = true) : p.Prime := by
  simp only [lucasCheck, Bool.and_eq_true, decide_eq_true_eq, beq_iff_eq, List.all_eq_true,
    bne_iff_ne, ne_eq] at h
  obtain ⟨⟨⟨⟨h1, hlt⟩, hprod⟩, hpow⟩, hne⟩ := h
  have cast_pow : ∀ e, e < 2 ^ 256 → ((g : ZMod p) ^ e = 1 ↔ powMod p 256 g e = 1) := by
    intro e he
    rw [powMod_eq _ _ _ _ he]
    have := ZMod.natCast_eq_natCast_iff' (g ^ e) 1 p
    rw [Nat.mod_eq_of_lt h1] at this
    rw [← this]; push_cast; rfl
  refine lucas_primality p (g : ZMod p) ((cast_pow _ (by omega)).2 hpow) ?_
  intro q hqp hdvd hone
  rw [← hprod] at hdvd
  obtain ⟨a, ha, hqa⟩ := (Prime.dvd_prod_iff hqp.prime).1 hdvd
  have : q = a := (Nat.prime_dvd_prime_iff_eq hqp (hq a ha)).1 hqa
  subst this
  exact hne q ha ((cast_pow _ (lt_of_le_of_lt (Nat.div_le_self _ _) (by omega))).1 hone)

theorem prime_2773320623 : Nat.Prime 2773320623 :=
  prime_of_lucasCheck _ 5 [2, 2437, 569003] (by simp; norm_num) (by decide +kernel)

theorem prime_72106336199 : Nat.Prime 72106336199 :=
  prime_of_lucasCheck _ 7 [2, 13, 2773320623]
    (by simp only [List.forall_mem_cons]; exact ⟨by norm_num, by norm_num, prime_2773320623, by simp⟩)
    (by decide +kernel)

theorem prime_1919519569386763 : Nat.Prime 1919519569386763 :=
  prime_of_lucasCheck _ 2 [2, 3, 7, 19, 47, 47, 127, 8574133] (by simp; norm_num) (by decide +kernel)

theorem prime_31757755568855353 : Nat.Prime 31757755568855353 :=
  prime_of_lucasCheck _ 10 [2, 2, 2, 3, 31, 107, 223, 4153, 430751] (by simp; norm_num)
    (by decide +kernel)

theorem prime_75445702479781427272750846543864801 :
    Nat.Prime 75445702479781427272750846543864801 :=
  prime_of_lucasCheck _ 7
    [72106336199, 1919519569386763, 2, 2, 2, 2, 2, 3, 3, 5, 5, 75707]
    (by
      simp only [List.forall_mem_cons]
      refine ⟨prime_72106336199, prime_1919519569386763, ?_⟩; norm_num)
    (by decide +kernel)

theorem prime_74058212732561358302231226437062788676166966415465897661863160754340907 :
    Nat.Prime 74058212732561358302231226437062788676166966415465897661863160754340907 :=
  prime_of_lucasCheck _ 2
    [31757755568855353, 75445702479781427272750846543864801, 2, 3, 353, 57467, 132049, 1923133]
    (by
      simp only [List.forall_mem_cons]
      refine ⟨prime_31757755568855353, prime_75445702479781427272750846543864801, ?_⟩; norm_num)
    (by decide +kernel)

/-- R9: p is prime. -/
theorem fieldPrime_prime : fieldPrime.Prime :=
  prime_of_lucasCheck _ 2
    [74058212732561358302231226437062788676166966415465897661863160754340907, 2, 2, 3, 65147]
    (by
      simp only [List.forall_mem_cons]
      refine ⟨prime_74058212732561358302231226437062788676166966415465897661863160754340907, ?_⟩
      norm_num)
    (by decide +kernel)

end Sys2Proof.Machine
end

