-- ==== Sys2Proof/Laws/Results.lean ====
section
/-! SUPPORT. What a command's result depends on: the registers and nothing else (R13, R20). So two states
with the same registers end a command alike, whatever their EQ and error record. -/

namespace Sys2Proof.Machine

/-- The result of a command: an error, or the registers it leaves and the EQ it writes, if it does. -/
inductive Result where
  | error (e : ErrorCode)
  | done (f : Vector FieldWord 32) (eq : Option Bool)

/-- The state with that result, completed. -/
def Result.apply (s : State) : Result → State
  | .error e => s.fail e
  | .done f eq => ({ s with f := f, eq := eq.getD s.eq } : State).complete

/-- The command gives this result wherever the registers are `f`. -/
def Gives (i : Instr) (f : Vector FieldWord 32) (r : Result) : Prop :=
  ∀ s : State, s.f = f → exec i s = .next (r.apply s)

@[simp] theorem Result.apply_f_error (s : State) (e : ErrorCode) :
    ((Result.error e).apply s).f = s.f := by simp [Result.apply]
@[simp] theorem Result.apply_f_done (s : State) (f : Vector FieldWord 32) (eq : Option Bool) :
    ((Result.done f eq).apply s).f = f := rfl
@[simp] theorem Result.apply_err_done (s : State) (f : Vector FieldWord 32) (eq : Option Bool) :
    ((Result.done f eq).apply s).err = s.err := rfl
@[simp] theorem Result.apply_errCode_done (s : State) (f : Vector FieldWord 32) (eq : Option Bool) :
    ((Result.done f eq).apply s).errCode = s.errCode := rfl

/-- Every command has a result that its registers alone decide. -/
theorem exec_gives (i : Instr) (f : Vector FieldWord 32) : ∃ r, Gives i f r := by
  let s0 : State := { State.reset with f := f }
  cases i with
  | nop => exact ⟨.done f none, fun s h => by subst h; rfl⟩
  | fadd d a b => exact ⟨.done (s0.writeNat d (addP (s0.red a) (s0.red b))).f none, fun s h => by subst h; rfl⟩
  | fsub d a b => exact ⟨.done (s0.writeNat d (subP (s0.red a) (s0.red b))).f none, fun s h => by subst h; rfl⟩
  | fneg d a => exact ⟨.done (s0.writeNat d (negP (s0.red a))).f none, fun s h => by subst h; rfl⟩
  | fmul d a b => exact ⟨.done (s0.writeNat d (mulP (s0.red a) (s0.red b))).f none, fun s h => by subst h; rfl⟩
  | fsqr d a => exact ⟨.done (s0.writeNat d (sqrP (s0.red a))).f none, fun s h => by subst h; rfl⟩
  | fmov d a => exact ⟨.done (s0.writeReg d (s0.reg a)).f none, fun s h => by subst h; rfl⟩
  | fconst d c =>
    cases hv : constTable c.toNat with
    | none => exact ⟨.error .illegalOperand, fun s _ => by rw [exec, execFconst, hv]; rfl⟩
    | some v => exact ⟨.done (s0.writeReg d v).f none, fun s h => by subst h; rw [exec, execFconst, hv]; rfl⟩
  | feq a b => exact ⟨.done f (some (eqField (s0.red a) (s0.red b))), fun s h => by subst h; rfl⟩
  | fred d a => exact ⟨.done (s0.writeNat d (s0.red a)).f none, fun s h => by subst h; rfl⟩
  | redp d a =>
    cases hv : isPair a
    · exact ⟨.error .illegalOperand, fun s _ => by rw [exec, execRedp, hv]; rfl⟩
    · exact ⟨.done (s0.writeNat d (s0.wide a % fieldPrime)).f none,
        fun s h => by subst h; rw [exec, execRedp, hv]; rfl⟩
  | redl d a =>
    cases hv : isPair a
    · exact ⟨.error .illegalOperand, fun s _ => by rw [exec, execRedl, hv]; rfl⟩
    · exact ⟨.done (s0.writeNat d (s0.wide a % scalarOrder)).f none,
        fun s h => by subst h; rw [exec, execRedl, hv]; rfl⟩
  | finv d a => exact ⟨.done (s0.writeNat d (invP (s0.red a))).f none, fun s h => by subst h; rfl⟩
  | fpow2 d a k => exact ⟨.done (s0.writeNat d (pow2P k.toNat (s0.red a))).f none, fun s h => by subst h; rfl⟩
  | pow22523 d a =>
    cases hv : isPair d
    · exact ⟨.error .illegalOperand, fun s _ => by rw [exec, execPow22523, hv]; rfl⟩
    · exact ⟨.done (s0.writePair d (chainP (s0.red a))).f none,
        fun s h => by subst h; rw [exec, execPow22523, hv]; rfl⟩
  | sqrtratio d a b =>
    cases hv : sqrtRatio (s0.red a) (s0.red b) with
    | none => exact ⟨.error .invalidPoint, fun s h => by
        subst h; rw [exec, execSqrtratio, show sqrtRatio (s.red a) (s.red b) = _ from hv]; rfl⟩
    | some v => exact ⟨.done (s0.writeNat d v).f none, fun s h => by
        subst h; rw [exec, execSqrtratio, show sqrtRatio (s.red a) (s.red b) = _ from hv]; rfl⟩
  | decomp d a =>
    cases hc : isPoint d
    · exact ⟨.error .illegalOperand, fun s _ => by rw [exec, execDecomp, hc]; rfl⟩
    · cases hv : decompress (s0.reg a) with
      | none => exact ⟨.error .invalidPoint, fun s h => by
          subst h; rw [exec, execDecomp, hc, show decompress (s.reg a) = _ from hv]; rfl⟩
      | some v => exact ⟨.done (s0.writePoint d v).f none, fun s h => by
          subst h; rw [exec, execDecomp, hc, show decompress (s.reg a) = _ from hv]; rfl⟩
  | pcomp d a =>
    cases hc : isPoint a
    · exact ⟨.error .illegalOperand, fun s _ => by rw [exec, execPcomp, hc]; rfl⟩
    · cases hv : toAffine (s0.point a) with
      | none => exact ⟨.error .invalidPoint, fun s h => by
          subst h; rw [exec, execPcomp, hc, show toAffine (s.point a) = _ from hv]; rfl⟩
      | some v => exact ⟨.done (s0.writeNat d (compress v.1 v.2)).f none, fun s h => by
          subst h; rw [exec, execPcomp, hc, show toAffine (s.point a) = _ from hv]; rfl⟩
  | pext d a =>
    cases hv : (isPoint d && isPair a)
    · exact ⟨.error .illegalOperand, fun s _ => by rw [exec, execPext, hv]; rfl⟩
    · exact ⟨.done (s0.writePoint d (extend (s0.red a) (s0.red (a + 1)))).f none,
        fun s h => by subst h; rw [exec, execPext, hv]; rfl⟩
  | paff d a =>
    cases hc : (isPoint d && isPoint a)
    · exact ⟨.error .illegalOperand, fun s _ => by rw [exec, execPaff, hc]; rfl⟩
    · cases hv : toAffine (s0.point a) with
      | none => exact ⟨.error .invalidPoint, fun s h => by
          subst h; rw [exec, execPaff, hc, show toAffine (s.point a) = _ from hv]; rfl⟩
      | some v => exact ⟨.done (s0.writePoint d (extend v.1 v.2)).f none, fun s h => by
          subst h; rw [exec, execPaff, hc, show toAffine (s.point a) = _ from hv]; rfl⟩
  | padd d a b =>
    cases hv : (isPoint d && isPoint a && isPoint b)
    · exact ⟨.error .illegalOperand, fun s _ => by rw [exec, execPadd, hv]; rfl⟩
    · exact ⟨.done (s0.writePoint d (addPoint (s0.point a) (s0.point b))).f none,
        fun s h => by subst h; rw [exec, execPadd, hv]; rfl⟩
  | psub d a b =>
    cases hv : (isPoint d && isPoint a && isPoint b)
    · exact ⟨.error .illegalOperand, fun s _ => by rw [exec, execPsub, hv]; rfl⟩
    · exact ⟨.done (s0.writePoint d (addPoint (s0.point a) (negPoint (s0.point b)))).f none,
        fun s h => by subst h; rw [exec, execPsub, hv]; rfl⟩
  | pdbl d a =>
    cases hv : (isPoint d && isPoint a)
    · exact ⟨.error .illegalOperand, fun s _ => by rw [exec, execPdbl, hv]; rfl⟩
    · exact ⟨.done (s0.writePoint d (doublePoint (s0.point a))).f none,
        fun s h => by subst h; rw [exec, execPdbl, hv]; rfl⟩
  | pneg d a =>
    cases hv : (isPoint d && isPoint a)
    · exact ⟨.error .illegalOperand, fun s _ => by rw [exec, execPneg, hv]; rfl⟩
    · exact ⟨.done (s0.writePoint d (negPoint (s0.point a))).f none,
        fun s h => by subst h; rw [exec, execPneg, hv]; rfl⟩
  | peq a b =>
    cases hc : (isPoint a && isPoint b)
    · exact ⟨.error .illegalOperand, fun s _ => by rw [exec, execPeq, hc]; rfl⟩
    · exact ⟨.done f (some (eqPoint (s0.point a) (s0.point b))),
        fun s h => by subst h; rw [exec, execPeq, hc]; rfl⟩

/-- A command that ends without an error with ERR clear ends so in the state itself: it writes its
destinations, or EQ if it is a compare. -/
theorem succeeds_of_endsWithoutError {i : Instr} {s t : State} (h : EndsWithoutError i s)
    (ht : exec i s = .next t) : Succeeds i s t := by
  obtain ⟨r, hr⟩ := exec_gives i s.f
  obtain ⟨u, hu, hue⟩ := h
  have hu' : r.apply s.clearError = u := by
    simpa only [hr s.clearError rfl, Host.Outcome.next.injEq] using hu
  have ht' : r.apply s = t := by simpa only [hr s rfl, Host.Outcome.next.injEq] using ht
  subst hu' ht'
  cases r with
  | error e => simp [Result.apply] at hue
  | done f eq =>
    obtain ⟨v, hv, hs | ⟨e, rfl⟩⟩ := exec_runs i s.clearError
    · obtain rfl : v = (Result.done f eq).apply s.clearError := by simpa [hu] using hv.symm
      rcases hs with ⟨hc, -, -, h⟩ | ⟨hc, -, -, he, h⟩
      · exact .inl ⟨hc, completes_complete rfl rfl rfl rfl rfl rfl, ⟨rfl, rfl, rfl, rfl⟩, h⟩
      · exact .inr ⟨hc, completes_complete rfl rfl rfl rfl rfl rfl, ⟨rfl, rfl, rfl, rfl⟩, he, h⟩
    · have h : (Result.done f eq).apply s.clearError = s.clearError.fail e := by
        simpa [hu] using hv
      rw [h] at hue
      simp at hue

/-- A command that fails from the state with ERR clear fails with that error from every state with the
same registers, and so leaves them. -/
theorem exec_fail_of_errCode {i : Instr} {s u : State} (hu : exec i s.clearError = .next u)
    (hc : u.errCode ≠ 0) :
    ∃ e : ErrorCode, e.code = u.errCode ∧ ∀ s' : State, s'.f = s.f → exec i s' = .next (s'.fail e) := by
  obtain ⟨r, hr⟩ := exec_gives i s.f
  have hu' : r.apply s.clearError = u := by
    simpa only [hr s.clearError rfl, Host.Outcome.next.injEq] using hu
  subst hu'
  cases r with
  | error e => exact ⟨e, by simp [Result.apply], hr⟩
  | done f eq => simp at hc

/-- What a result leaves apart from F and EQ (R56, R311): a completed command, and the first error kept. -/
theorem Result.apply_completes (r : Result) (s : State) :
    Completes s (r.apply s) ∧ (s.err = true → SameError s (r.apply s)) := by
  cases r with
  | error e => exact ⟨(failsWith_fail s e).completes, fun h => by simp [Result.apply, SameError, h]⟩
  | done f eq =>
    exact ⟨completes_complete rfl rfl rfl rfl rfl rfl, fun _ => ⟨rfl, rfl, rfl, rfl⟩⟩

/-- The registers a result leaves depend on the registers alone. -/
theorem Result.apply_f_congr (r : Result) {s s' : State} (h : s.f = s'.f) :
    (r.apply s).f = (r.apply s').f := by
  cases r with
  | error e => simpa using h
  | done f eq => rfl

/-- The core's turn on a word in flight has a result that the word and the registers alone decide. -/
theorem coreStep_gives (w : Word) (f : Vector FieldWord 32) :
    ∃ r : Result, ∀ s : State, s.f = f → s.inFlight = some w → coreStep s = .next (r.apply s) := by
  rcases hd : decode w with e | i
  · obtain ⟨c, hc⟩ : ∃ c, ∀ s : State, s.failDecode e = s.fail c := by
      cases e
      · exact ⟨.illegalOpcode, fun _ => rfl⟩
      · exact ⟨.illegalOperand, fun _ => rfl⟩
    refine ⟨.error c, fun s _ hw => ?_⟩
    simp only [coreStep, hw, hd, hc]; rfl
  · obtain ⟨r, hr⟩ := exec_gives i f
    refine ⟨r, fun s hf hw => ?_⟩
    simp only [coreStep, hw, hd]; exact hr s hf

end Sys2Proof.Machine
end

