-- ==== Sys2Proof/Tests/Slice0.lean ====
section
/-! SUPPORT. Tests of the model against the spec's encodings (30_encoding.md) and vectors
(95_test_vectors.md, by their names V…), and the witnesses of the obligations: concrete states and
operands that meet the hypotheses of each together. -/

set_option Elab.async false

namespace Sys2Proof.Tests

open Sys2Proof.Machine

/-! ### Ill-formed commands (R129 to R131) -/

/-- A point index that is no multiple of 4, in each field of kind `p`. -/
theorem test_pointIndex_refused :
    wellFormed (.decomp 5 0) = false ∧ wellFormed (.pcomp 0 2) = false ∧
      wellFormed (.pext 1 0) = false ∧ wellFormed (.paff 4 7) = false ∧
      wellFormed (.padd 8 0 5) = false ∧ wellFormed (.psub 8 3 4) = false ∧
      wellFormed (.pdbl 30 4) = false ∧ wellFormed (.pneg 4 31) = false ∧
      wellFormed (.peq 4 9) = false := by decide

/-- A pair index of 31, in each field of kind `w`. -/
theorem test_pairIndex_refused :
    wellFormed (.redp 3 31) = false ∧ wellFormed (.redl 3 31) = false ∧
      wellFormed (.pow22523 31 1) = false ∧ wellFormed (.pext 4 31) = false := by decide

/-- A constant index above 9. -/
theorem test_constIndex_refused :
    wellFormed (.fconst 3 9) = true ∧ wellFormed (.fconst 3 10) = false := by decide

/-! ### Decoding: words written out field by field, IMM RB RA RD OP (R121, R125) -/

theorem test_decode_montgomery_mult :
    decode 0b00000000000000000000000000000000 = .ok .nop ∧
    decode 0b00000000000000100000100011000001 = .ok (.fadd 3 1 2) ∧
    decode 0b00000000000100000000011111000010 = .ok (.fsub 31 0 16) ∧
    decode 0b00000000000000000000100011000011 = .ok (.fneg 3 1) ∧
    decode 0b00000000000001011001001000000100 = .ok (.fmul 8 18 5) ∧
    decode 0b00000000000000000100110011000101 = .ok (.fsqr 19 9) ∧
    decode 0b00000000000000001111100000000110 = .ok (.fmov 0 31) ∧
    decode 0b00000001001000000000000101000111 = .ok (.fconst 5 9) ∧
    decode 0b00000000000000010100000000001000 = .ok (.feq 8 1) := by decide +kernel

theorem test_decode_modular_reducer :
    decode 0b00000000000000000000100011010000 = .ok (.fred 3 1) ∧
    decode 0b00000000000000001111011111010001 = .ok (.redp 31 30) ∧
    decode 0b00000000000000000010000011010010 = .ok (.redl 3 4) := by decide +kernel

theorem test_decode_modular_inverter :
    decode 0b00000000000000000000100110011000 = .ok (.finv 6 1) ∧
    decode 0b11111111111000000010000011011001 = .ok (.fpow2 3 4 2047) ∧
    decode 0b00000000000000001111111110011010 = .ok (.pow22523 30 31) := by decide +kernel

theorem test_decode_field_sqrt_mod_p :
    decode 0b00000000000000100000100011100000 = .ok (.sqrtratio 3 1 2) ∧
    decode 0b00000000000000001111111100100001 = .ok (.decomp 28 31) ∧
    decode 0b00000000000000000010010001100010 = .ok (.pcomp 17 4) := by decide +kernel

theorem test_decode_edwards_point_adder :
    decode 0b00000000000000001111000100101000 = .ok (.pext 4 30) ∧
    decode 0b00000000000000001110001000101001 = .ok (.paff 8 28) ∧
    decode 0b00000000000001000000001000101010 = .ok (.padd 8 0 4) ∧
    decode 0b00000000000101001100011100101011 = .ok (.psub 28 24 20) ∧
    decode 0b00000000000000000010001100101100 = .ok (.pdbl 12 4) ∧
    decode 0b00000000000000000100000100101101 = .ok (.pneg 4 8) ∧
    decode 0b00000000000011000100000000101110 = .ok (.peq 8 12) := by decide +kernel

/-- A bit set in a field the format does not use (V30-4, V40-18, V40-23, V44-26). -/
theorem test_decode_refuses_unusedFields :
    decode 0x002208C1 = .error .illegalOperand ∧ decode 0x000008C7 = .error .illegalOperand ∧
      decode 0x00000040 = .error .illegalOperand ∧
      decode 0x0004012E = .error .illegalOperand := by decide +kernel

/-- The assembler lines of P2 and P3, and the expansion they name (R134, R135). -/
theorem test_asm :
    asm (.fconst 5 5) = "FCONST f5, #GY" ∧ asm (.padd 8 4 4) = "PADD p2, p1, p1" ∧
      asm (.pcomp 16 8) = "PCOMP f16, p2" ∧ asm (.fpow2 3 4 3) = "FPOW2 f3, f4, #3" ∧
      (expand (.finvchain 3 1 4)).map encode = [0x0000091A, 0x006020D9, 0x000518C4] ∧
      (expand (.pbase 4)).map encode = [0x00800107, 0x00A00147, 0x00002128] := by decide +kernel

/-! ### One step on a small state: the vectors of 95_test_vectors.md -/

/-- The state after reset with the listed registers written. -/
def holding (regs : List (RegIdx × FieldWord)) : State :=
  regs.foldl (fun s (rv : RegIdx × FieldWord) => s.writeReg rv.1 rv.2) State.reset

/-- That state with the word `w` accepted. -/
def loaded (w : Nat) (regs : List (RegIdx × FieldWord)) : State := (holding regs).withFetchWord 32 w

/-- The state a step leaves, or the same state where it stops. -/
def stepped (s : State) : State :=
  match step s with
  | .next t => t
  | .fault _ => s
  | .refused _ => s

/-- The step completes the word, writing the listed registers and no other state but LASTCMD. -/
def ends (w : Nat) (regs results : List (RegIdx × FieldWord)) : Bool :=
  stepped (loaded w regs) ==
    { holding (regs ++ results) with done := true, lastCmd := BitVec.ofNat 32 w }

/-- The step completes the word, setting EQ. -/
def compares (w : Nat) (regs : List (RegIdx × FieldWord)) (eq : Bool) : Bool :=
  stepped (loaded w regs) ==
    { holding regs with eq := eq, done := true, lastCmd := BitVec.ofNat 32 w }

/-- The step completes the word with an error. -/
def fails (w : Nat) (regs : List (RegIdx × FieldWord)) (code : BitVec 4) : Bool :=
  stepped (loaded w regs) ==
    { holding regs with
      err := true
      errCode := code
      errInfo := BitVec.ofNat 32 w
      done := true
      lastCmd := BitVec.ofNat 32 w }

/-- p, p − 1 and the coordinates X, Y, T of the base point, as the vectors write them. -/
def pv : FieldWord := 0x7fffffffffffffffffffffffffffffffffffffffffffffffffffffffffffffed
def pm1 : FieldWord := 0x7fffffffffffffffffffffffffffffffffffffffffffffffffffffffffffffec
def gx : FieldWord := 0x216936d3cd6e53fec0a4e231fdd6dc5c692cc7609525a7b2c9562d608f25d51a
def gy : FieldWord := 0x6666666666666666666666666666666666666666666666666666666666666658
def gt : FieldWord := 0x67875f0fd78b766566ea4e8e64abe37d20f09f80775152f56dde8ab3a5b7dda3

/-- V40-2, V40-3. -/
theorem test_fadd :
    ends 0x000208C1 [(1, 0xffffffffffffffffffffffffffffffffffffffffffffffffffffffffffffffff), (2,
      0x0)] [(3, 0x25)] = true ∧
    ends 0x00010841 [(1, pm1)] [(1,
      0x7fffffffffffffffffffffffffffffffffffffffffffffffffffffffffffffeb)] = true := by decide +kernel

/-- V40-4, V40-5. -/
theorem test_fsub :
    ends 0x000208C2 [(1, 0x0), (2, 0x1)] [(3, pm1)] = true ∧
    ends 0x000208C2 [(1, 0x5), (2,
      0x7ffffffffffffffffffffffffffffffffffffffffffffffffffffffffffffff2)] [(3, 0x0)] = true := by decide +kernel

/-- V40-7, V40-8. -/
theorem test_fneg :
    ends 0x000008C3 [(1, pv)] [(3, 0x0)] = true ∧
    ends 0x000008C3 [(1, 0x1)] [(3, pm1)] = true := by decide +kernel

/-- V40-9, V40-11. -/
theorem test_fmul :
    ends 0x000208C4 [(1, pm1), (2, pm1)] [(3, 0x1)] = true ∧
    ends 0x000208C4 [(1, 0x8000000000000000000000000000000000000000000000000000000000000000), (2,
      0x2)] [(3, 0x26)] = true := by decide +kernel

/-- V40-13. -/
theorem test_fsqr :
    ends 0x000008C5 [(1, 0x2b8324804fc1df0b2b4d00993dfbd7a72f431806ad2fe478c4ee1b274a0ea0b0)] [(3,
      pm1)] = true := by decide +kernel

/-- V40-14. -/
theorem test_fmov :
    ends 0x000008C6 [(1, 0xffffffffffffffffffffffffffffffffffffffffffffffffffffffffffffffff)] [(3,
      0xffffffffffffffffffffffffffffffffffffffffffffffffffffffffffffffff)] = true := by decide +kernel

/-- V40-15, V40-17. -/
theorem test_fconst :
    ends 0x004000C7 [] [(3, 0x52036cee2b6ffe738cc740797779e89800700a4d4141d8ab75eb4dca135978a3)] =
      true ∧
    fails 0x014000C7 [] 2 = true := by decide +kernel

/-- V40-20, V40-21. -/
theorem test_feq :
    compares 0x00020808 [(1, 0x0), (2, pv)] true = true ∧
    compares 0x00020808 [(1, 0x1), (2, 0x2)] false = true := by decide +kernel

/-- V40-22, V40-23. -/
theorem test_nop :
    ends 0x00000000 [] [] = true ∧
    fails 0x00000040 [] 2 = true := by decide +kernel

/-- V41-1, V41-2. -/
theorem test_fred :
    ends 0x000008D0 [(1, 0xffffffffffffffffffffffffffffffffffffffffffffffffffffffffffffffff)] [(3,
      0x25)] = true ∧
    ends 0x000008D0 [(1, pv)] [(3, 0x0)] = true := by decide +kernel

/-- V41-5, V41-6. -/
theorem test_redp :
    ends 0x00002111 [(4, 0x3), (5, 0x1)] [(4, 0x29), (5, 0x1)] = true ∧
    fails 0x0000F8D1 [] 2 = true := by decide +kernel

/-- V41-8, V41-9. -/
theorem test_redl :
    ends 0x000020D2 [(4, 0xffffffffffffffffffffffffffffffffffffffffffffffffffffffffffffffff), (5,
      0xffffffffffffffffffffffffffffffffffffffffffffffffffffffffffffffff)] [(3,
      0x0399411b7c309a3dceec73d217f5be65d00e1ba768859347a40611e3449c0f00)] = true ∧
    ends 0x000020D2 [(4, 0x0), (5, 0x1)] [(3,
      0x0ffffffffffffffffffffffffffffffec6ef5bf4737dcf70d6ec31748d98951d)] = true := by decide +kernel

/-- V42-1, V42-3. -/
theorem test_finv :
    ends 0x000008D8 [(1, 0x2)] [(3,
      0x3ffffffffffffffffffffffffffffffffffffffffffffffffffffffffffffff7)] = true ∧
    ends 0x000008D8 [(1, pv)] [(3, 0x0)] = true := by decide +kernel

/-- V42-7, V42-9. -/
theorem test_fpow2 :
    ends 0x000008D9 [(1, 0x7ffffffffffffffffffffffffffffffffffffffffffffffffffffffffffffff4)] [(3,
      0x7)] = true ∧
    ends 0x1FE008D9 [(1, 0x3)] [(3, 0xcfd41b91)] = true := by decide +kernel

/-- V42-11, V42-14. -/
theorem test_pow22523 :
    ends 0x0000091A [(1, 0x9)] [(4,
      0x5555555555555555555555555555555555555555555555555555555555555549), (5, 0x2d9)] = true ∧
    fails 0x00000FDA [] 2 = true := by decide +kernel

/-- V43-2, V43-5. -/
theorem test_sqrtratio :
    ends 0x000208E0 [(1, 0x4), (2, 0x1)] [(3,
      0x7fffffffffffffffffffffffffffffffffffffffffffffffffffffffffffffeb)] = true ∧
    fails 0x000208E0 [(1, 0x2), (2, 0x1)] 4 = true := by decide +kernel

/-- V43-13, V43-15. -/
theorem test_decomp :
    ends 0x00000121 [(0, 0x8000000000000000000000000000000000000000000000000000000000000000)] [(4,
      0x547cdb7fb03e20f4d4b2ff66c2042858d0bce7f952d01b873b11e4d8b5f15f3d), (5, 0x0), (6, 0x1),
      (7, 0x0)] = true ∧
    fails 0x00000121 [(0, pv)] 4 = true := by decide +kernel

/-- V43-21, V43-22. -/
theorem test_pcomp :
    ends 0x00002222 [(4, 0x5e96c92c3291ac013f5b1dce022923a396d3389f6ada584d36a9d29f70da2ad3), (5,
      gy), (6, 0x1), (7, 0x0)] [(8,
      0xe666666666666666666666666666666666666666666666666666666666666658)] = true ∧
    fails 0x00002222 [(4, 0x0), (5, 0x0), (6, 0x0), (7, 0x0)] 4 = true := by decide +kernel

/-- V44-2, V44-3. -/
theorem test_pext :
    ends 0x00000028 [(0, 0x0), (1, 0x1)] [(0, 0x0), (1, 0x1), (2, 0x1), (3, 0x0)] = true ∧
    fails 0x0000F928 [] 2 = true := by decide +kernel

/-- V44-4, V44-6. -/
theorem test_paff :
    ends 0x00002229 [(4, 0x69e07fca9e044bf744822f5df0e00686e03973a4140795e3815b3da3ea08d3c9), (5,
      0x4cccccccccccccccccccccccccccccccccccccccccccccccccccccccccccccc7), (6, 0x7), (7,
      0x54b3996ee4d03cc5d06825e4c0b3386be6945c83433944b60115cae988070fd4)] [(8, gx), (9, gy),
      (10, 0x1), (11, gt)] = true ∧
    fails 0x00002229 [(4, 0x5), (5, 0x6), (6, pv), (7, 0x9)] 4 = true := by decide +kernel

/-- V44-7, V44-27. -/
theorem test_padd :
    ends 0x0004022A [(0, gx), (1, gy), (2, 0x1), (3, gt), (4, 0x0), (5, 0x1), (6, 0x1), (7, 0x0)]
      [(8, 0x52dee48afd7322bf5086d6ff89f3d63c8c71f4445c2487f7b68b5364d619f48c), (9,
      0x64e46365e4f17ade1620fb6142260b2a0301fe67e4376fde2c61bbd878b2c55f), (10,
      0x1e1d7c3f5e2dd9959ba93a3992af8df483c27e01dd454bd5b77a2ace96df76c5), (11,
      0x0f18b6d5978f4eff739f126607f644fd3d27f69d16839ff95ed5dc50ab47f6de)] = true ∧
    fails 0x0005022A [] 2 = true := by decide +kernel

/-- V44-13. -/
theorem test_psub :
    ends 0x0004022B [(0, gx), (1, gy), (2, 0x1), (3, gt), (4, gx), (5, gy), (6, 0x1), (7, gt)]
      [(8, 0x0), (9, 0x1f6e08da2d298daafc6ea6fedd5e07c172749500483d139bc532c7e392cad989), (10,
      0x1f6e08da2d298daafc6ea6fedd5e07c172749500483d139bc532c7e392cad989), (11, 0x0)] = true := by decide +kernel

/-- V44-14. -/
theorem test_pdbl :
    ends 0x0000222C [(4, gx), (5, gy), (6, 0x1), (7, gt)] [(8,
      0x31241ddb9a7c254aea224b87b7b0f909886ec1ddfa71625b7aba864c18300a57), (9,
      0x3324984c6cc933db69b782fc3ac951f60a47aa662bbe321c924b2cd95e2d7fd7), (10,
      0x6986c5796b577c574098d1fa3b426292ebd36100339299d16374a93d0278de6b), (11,
      0x18247dc974b59c9540e4564048a87e0fa362dabfedf0bb190eb34e071b4d4999)] = true := by decide +kernel

/-- V44-19. -/
theorem test_pneg :
    ends 0x0000222D [(4, gx), (5, gy), (6, 0x1), (7, gt)] [(8,
      0x5e96c92c3291ac013f5b1dce022923a396d3389f6ada584d36a9d29f70da2ad3), (9, gy), (10, 0x1),
      (11, 0x1878a0f02874899a9915b1719b541c82df0f607f88aead0a9221754c5a48224a)] = true := by decide +kernel

/-- V44-22, V44-24. -/
theorem test_peq :
    compares 0x0004002E [(0, gx), (1, gy), (2, 0x1), (3, gt), (4, 0x0), (5, 0x1), (6, 0x1), (7,
      0x0)] false = true ∧
    compares 0x0004002E [(0, 0x5), (1, 0x6), (2, 0x0), (3, 0x0), (4, gx), (5, gy), (6, 0x1), (7,
      gt)] false = true := by decide +kernel

/-- V30-1, V30-2. -/
theorem test_reserved :
    fails 0x00000009 [] 1 = true ∧
    fails 0xFFFFFFFF [] 1 = true := by decide +kernel

/-! ### The bus: the vectors VB -/

/-- The state with one input to come. -/
def facing (e : Event) (s : State) : State := { s with events := [e] }

/-- A host write in a state, as a step. -/
def wrote (off : Offset) (v : Word) (s : State) : State := stepped (facing (.host (.write off v)) s)

/-- A host read in a state: the data port after the step. -/
def reads (off : Offset) (s : State) : Option Word := (stepped (facing (.host (.read off)) s)).rdata

/-- VB-1, VB-3, VB-6. -/
theorem test_bus_constants :
    reads 0x000 State.reset = some 0x45444459 ∧ reads 0x008 State.reset = some 0x00010A20 ∧
      reads 0x0FC State.reset = some 0 ∧ reads 0xFFC State.reset = some 0 := by decide +kernel

/-- VB-8, VB-9. -/
theorem test_bus_fieldWords :
    (wrote 0x11C 0xAABBCCDD (wrote 0x100 0x11223344 State.reset)).reg 0 =
        0xAABBCCDD00000000000000000000000000000000000000000000000011223344 ∧
      reads 0x120 (holding [(1, 0x201f1e1d1c1b1a191817161514131211100f0e0d0c0b0a090807060504030201)]) =
        some 0x04030201 := by decide +kernel

/-- VB-19, VB-20. -/
theorem test_bus_busyAccess :
    reads 0x018 (wrote 0x104 0xDEADBEEF (loaded 0x000208C1 [])) = some 0x103 ∧
      reads 0x01C (wrote 0x104 0xDEADBEEF (loaded 0x000208C1 [])) = some 0x104 ∧
      reads 0x018 (wrote 0x014 0x00000009 (loaded 0x000208C1 [])) = some 0x3 ∧
      reads 0x014 (wrote 0x014 0x00000009 (loaded 0x000208C1 [])) = some 0x000208C1 := by
  decide +kernel

/-- VB-25. -/
theorem test_bus_softReset :
    wrote 0x00C 0x80000000 (loaded 0x000008D8 [(0, 5)]) = State.reset := by decide +kernel

/-- VB-26: the set wins over the clear in the cycle of the completion. -/
theorem test_cycle_setWins :
    (match cycle (fun _ => 1) ⟨true, some (.write 0x010 0x4)⟩ ⟨loaded 0x000208E0 [(1, 2), (2, 1)], 1⟩ with
      | .next n => some (n.s.err, n.s.errCode)
      | .fault _ => none
      | .refused _ => none) = some (true, 4) := by decide +kernel

/-! ### Witnesses: the hypotheses of each obligation are met together -/

/-- Every operand at a bound of its kind. -/
theorem witness_DecodeOfEncodeIsTheCommand :
    WellFormed (.padd 28 0 28) ∧ WellFormed (.redp 31 30) ∧ WellFormed (.pow22523 30 31) ∧
      WellFormed (.fconst 31 9) ∧ WellFormed (.fpow2 31 0 2047) := by decide

theorem witness_LegalWordIsTheOneEncoding : decode 0x0004022A = .ok (.padd 8 0 4) := by decide +kernel

theorem witness_ReservedOpcodesAreIllegal :
    ReservedOp 0x09 ∧ ReservedOp 0x3F ∧ ¬ ReservedOp 0x08 ∧ ¬ ReservedOp 0x2E := by
  unfold ReservedOp; omega

/-- One word per clause: OP, and the field that breaks its kind. -/
theorem witness_PointAndPairFieldsAreChecked :
    (0x161 % 2 ^ 6 = 0x21 ∧ 0x161 / 2 ^ 6 % 2 ^ 5 % 4 ≠ 0) ∧
      (0x822 % 2 ^ 6 = 0x22 ∧ 0x822 / 2 ^ 11 % 2 ^ 5 % 4 ≠ 0) ∧
      (0x0005022A % 2 ^ 6 = 0x2A ∧ 0x0005022A / 2 ^ 16 % 2 ^ 5 % 4 ≠ 0) ∧
      (0x0000F8D1 % 2 ^ 6 = 0x11 ∧ 0x0000F8D1 / 2 ^ 11 % 2 ^ 5 = 31) ∧
      (0x00000FDA % 2 ^ 6 = 0x1A ∧ 0x00000FDA / 2 ^ 6 % 2 ^ 5 = 31) := by decide

/-- One word per clause: OP, and the unused field that is not 0. -/
theorem witness_UnusedFieldsAndConstantIndexAreChecked :
    (0x00000040 % 2 ^ 6 = 0x00 ∧ 0x00000040 / 2 ^ 6 % 2 ^ 5 ≠ 0) ∧
      (0x002208C1 % 2 ^ 6 = 0x01 ∧ 0x002208C1 / 2 ^ 21 ≠ 0) ∧
      (0x000108C3 % 2 ^ 6 = 0x03 ∧ 0x000108C3 / 2 ^ 16 % 2 ^ 5 ≠ 0) ∧
      (0x000008C7 % 2 ^ 6 = 0x07 ∧ 0x000008C7 / 2 ^ 11 % 2 ^ 5 ≠ 0) ∧
      (0x000108D9 % 2 ^ 6 = 0x19 ∧ 0x000108D9 / 2 ^ 16 % 2 ^ 5 ≠ 0) ∧
      (0x0004012E % 2 ^ 6 = 0x2E ∧ 0x0004012E / 2 ^ 6 % 2 ^ 5 ≠ 0) ∧
      (0x014000C7 % 2 ^ 6 = 0x07 ∧ 0x014000C7 / 2 ^ 21 = 10) := by decide

/-- With no input to come, and with the core's turn first. -/
theorem witness_StepRunsTheDecodedCommand :
    (CoreIsNext (loaded 0x000208C1 []) ∧ (loaded 0x000208C1 []).inFlight = some 0x000208C1 ∧
      decode 0x000208C1 = .ok (.fadd 3 1 2)) ∧
    CoreIsNext (facing .completion (loaded 0x000208C1 [])) :=
  ⟨⟨.inl rfl, rfl, by decide +kernel⟩, .inr rfl⟩

/-- NOP with IMM = 1 is the encoding of no command. -/
theorem nop_with_imm_is_no_encoding : ∀ i, WellFormed i → encode i ≠ 0x00200000 := by
  intro i _ h
  have hop := congrArg opField h
  have himm := congrArg immField h
  cases i <;> simp [encode] at hop himm <;> first | (revert hop; decide) | (revert himm; decide)

/-- A reserved OP; and NOP with IMM = 1, which no well-formed command encodes to. -/
theorem witness_IllegalWordsEndWithTheirError :
    (CoreIsNext (loaded 0x00000009 []) ∧ (loaded 0x00000009 []).inFlight = some 0x00000009 ∧
      ReservedOp ((0x00000009 : Word).toNat % 2 ^ 6)) ∧
    (loaded 0x00200000 []).inFlight = some 0x00200000 ∧
      ¬ ReservedOp ((0x00200000 : Word).toNat % 2 ^ 6) ∧
      ∀ i, WellFormed i → encode i ≠ 0x00200000 := by
  exact ⟨⟨.inl rfl, rfl, by unfold ReservedOp; decide⟩, rfl, by unfold ReservedOp; decide,
    nop_with_imm_is_no_encoding⟩

theorem witness_CoreIdlesWithNothingInFlight :
    CoreIsNext State.reset ∧ State.reset.inFlight = none := ⟨.inl rfl, rfl⟩

theorem witness_EveryStepGoesOn : SafeInputs (facing .reset (loaded 0 [])) := by
  simp [SafeInputs, facing]

/-- The reset port; and CTRL bit 31, at the last offset of its word. -/
theorem witness_ResetRestoresEveryElement :
    ResetIsNext (facing .reset (loaded 0x000008D8 [(0, 5)])) ∧
      ResetIsNext (facing (.host (.write 0x00F 0x80000000)) (loaded 0x000008D8 [(0, 5)])) :=
  ⟨.inl rfl, .inr ⟨_, _, rfl, by decide, by decide⟩⟩

/-- What an outcome answers. -/
def answer : Host.Outcome State Fault Refusal → Option State
  | .next t => some t
  | .fault _ => none
  | .refused _ => none

theorem eq_next_of_answer {o : Host.Outcome State Fault Refusal} {t : State}
    (h : answer o = some t) : o = .next t := by
  cases o <;> simp_all [answer]

/-- With no input to come, neither a reset nor an acknowledgement is next. -/
theorem quiet_of_nil {s : State} (h : s.events = []) : ¬ ResetIsNext s ∧ ¬ AcknowledgeIsNext s := by
  constructor
  · rintro (h' | ⟨off, v, h', -⟩) <;> simp [h] at h'
  · rintro ⟨off, v, h', -⟩
    simp [h] at h'

/-- A host write to another word than CTRL is no reset. -/
theorem not_reset_of_write {s : State} {off : Offset} {v : Word}
    (h : s.events.head? = some (.host (.write off v))) (hoff : off.toNat / 4 ≠ 3) :
    ¬ ResetIsNext s := by
  rintro (h' | ⟨off', v', h', h3, -⟩) <;> rw [h] at h'
  · simp at h'
  · rw [Option.some.injEq, Event.host.injEq, Transaction.write.injEq] at h'
    exact hoff (h'.1 ▸ h3)

/-- A state with a command in flight meets the invariant, and steps. -/
theorem witness_StepKeepsTheInvariant :
    Inv (loaded 0x00000009 []) ∧
      step (loaded 0x00000009 []) = .next (stepped (loaded 0x00000009 [])) := by
  refine ⟨⟨by decide, ?_, by decide, by decide, by decide, by decide, by decide⟩,
    eq_next_of_answer (by decide +kernel)⟩
  intro w hw
  exact Option.some.inj hw

/-- FEQ of two equal registers sets EQ; a reset clears it. -/
theorem witness_EqChangesOnlyByCompareOrReset :
    (step (loaded 0x00020808 []) = .next (stepped (loaded 0x00020808 [])) ∧
      (stepped (loaded 0x00020808 [])).eq ≠ (loaded 0x00020808 []).eq) ∧
    (step (facing .reset (State.reset.writeEq true)) = .next State.reset ∧
      State.reset.eq ≠ (facing .reset (State.reset.writeEq true)).eq) :=
  ⟨⟨eq_next_of_answer (by decide +kernel), by decide +kernel⟩,
    eq_next_of_answer (by decide +kernel), by decide +kernel⟩

/-- A second failing command after a first one. -/
theorem witness_FirstErrorIsKept :
    let s := (stepped (loaded 0x00000009 [])).accept 0x00000040
    step s = .next (stepped s) ∧ s.err = true ∧ ¬ ResetIsNext s ∧ ¬ AcknowledgeIsNext s :=
  ⟨eq_next_of_answer (by decide +kernel), by decide +kernel, quiet_of_nil (by decide +kernel)⟩

theorem witness_OnlyFourCommandsCanFail :
    WellFormed (.fconst 0 9) ∧ canRejectPoint (.fconst 0 9) = false ∧
      exec (.fconst 0 9) State.reset = .next ((holding [(0, 8)]).complete) :=
  ⟨by decide, rfl, eq_next_of_answer (by decide +kernel)⟩

theorem witness_BusyBlockIsTheCores :
    let s := facing (.host (.write 0x100 7)) (loaded 0x000208C1 [])
    s.events.head? = some (.host (.write 0x100 7)) ∧ s.busy = true ∧ ¬ ResetIsNext s ∧
      step s = .next (stepped s) :=
  ⟨rfl, rfl, not_reset_of_write rfl (by decide), eq_next_of_answer (by decide +kernel)⟩

/-- FRED f1, f1 of the raw value p + 3 ends without an error, and changes f1. -/
theorem witness_ResultsAreCanonical :
    let s := holding [(1, pv + 3)]
    exec (.fred 1 1) s = .next (holding [(1, 3)]).complete ∧
      (∀ d a, Instr.fred 1 1 ≠ .fmov d a ∧ Instr.fred 1 1 ≠ .pcomp d a) ∧
      EndsWithoutError (.fred 1 1) s ∧ (1 : RegIdx) ∈ dests (.fred 1 1) ∧
      (holding [(1, 3)]).complete.reg 1 ≠ s.reg 1 :=
  ⟨eq_next_of_answer (by decide +kernel), by simp,
    ⟨(holding [(1, 3)]).complete, eq_next_of_answer (by decide +kernel), rfl⟩, by decide,
    by decide +kernel⟩

theorem witness_InadmissibleOperandsEndWithTheirError :
    ¬ WellFormed (.padd 8 0 5) ∧ ¬ WellFormed (.redl 0 31) ∧ ¬ WellFormed (.fconst 0 10) := by decide

/-- The first and the last word of each range of offsets. -/
theorem witness_ControlRegistersReadAsTheirWords :
    (facing (.host (.read 0x0FF)) State.reset).events.head? = some (.host (.read 0x0FF)) ∧
      (0x0FF : Offset).toNat / 4 < 0x40 ∧ 0x140 ≤ (0x500 : Offset).toNat / 4 ∧
      0x140 ≤ (0xFFF : Offset).toNat / 4 ∧ (0x003 : Offset).toNat / 4 = 0 ∧
      (0x01C : Offset).toNat / 4 = 7 ∧ 8 ≤ (0x020 : Offset).toNat / 4 := by decide

theorem witness_WritesToReadOnlyOffsetsAreIgnored :
    (facing (.host (.write 0x00B 7)) State.reset).events.head? = some (.host (.write 0x00B 7)) ∧
      (0x00B : Offset).toNat / 4 ≤ 2 ∧
      (6 ≤ (0x018 : Offset).toNat / 4 ∧ (0x0FF : Offset).toNat / 4 < 0x40) ∧
      0x140 ≤ (0x500 : Offset).toNat / 4 := by decide

theorem witness_CommandIsAcceptedWhenIdle :
    (facing (.host (.write 0x017 9)) State.reset).events.head? = some (.host (.write 0x017 9)) ∧
      (0x017 : Offset).toNat / 4 = 5 ∧ (facing (.host (.write 0x017 9)) State.reset).busy = false := by
  decide

/-- CMD; the first and the last field word. -/
theorem witness_BusyWritesAreDiscardedAndRecorded :
    let s := facing (.host (.write 0x4FF 7)) (loaded 0 [])
    s.events.head? = some (.host (.write 0x4FF 7)) ∧ s.busy = true ∧
      (0x014 : Offset).toNat / 4 = 5 ∧ 0x40 ≤ (0x100 : Offset).toNat / 4 ∧
      (0x4FF : Offset).toNat / 4 < 0x140 := by decide

/-- Word 0 of F[0], and word 7 of F[31]. -/
theorem witness_FieldWordWriteReplacesOneWord :
    let s := facing (.host (.write 0x4FC 7)) State.reset
    s.events.head? = some (.host (.write 0x4FC 7)) ∧ s.busy = false ∧
      (0x4FC : Offset).toNat / 4 = 0x40 + 8 * (31 : RegIdx).val + (7 : Fin 8).val ∧
      (0x100 : Offset).toNat / 4 = 0x40 + 8 * (0 : RegIdx).val + (0 : Fin 8).val := by decide

theorem witness_FieldWordReadAnswersOneWord :
    let s := facing (.host (.read 0x4FC)) State.reset
    s.events.head? = some (.host (.read 0x4FC)) ∧ s.busy = false ∧
      (0x4FC : Offset).toNat / 4 = 0x40 + 8 * (31 : RegIdx).val + (7 : Fin 8).val := by decide

theorem witness_AddressLowBitsAreIgnored :
    (0x104 : Offset).toNat / 4 = (0x107 : Offset).toNat / 4 := by decide

theorem witness_CtrlAndStatusWritesTakeEffect :
    (facing (.host (.write 0x00C 3)) State.reset).events.head? = some (.host (.write 0x00C 3)) ∧
      (0x00C : Offset).toNat / 4 = 3 ∧ (3 : Word).getLsbD 31 = false ∧
      (0x013 : Offset).toNat / 4 = 4 := by decide

/-- A word in its last cycle; STATUS, CMD and the ends of the field words written; and a word for each
code: a reserved OP, NOP with IMM = 1, SQRTRATIO of 2/1. -/
theorem witness_HostComesBeforeCompletionInACycle :
    let m : Clocked := ⟨loaded 0x3F [], 1⟩
    let s := loaded 0x000208E0 [(1, 2), (2, 1)]
    m.s.busy = true ∧ m.s.inFlight = some 0x3F ∧ m.left ≤ 1 ∧ (0x010 : Offset).toNat / 4 = 4 ∧
      (0x014 : Offset).toNat / 4 = 5 ∧ m.s.err = false ∧ (4 : Word).getLsbD 2 = true ∧
      0x40 ≤ (0x100 : Offset).toNat / 4 ∧ (0x4FF : Offset).toNat / 4 < 0x140 ∧
      EndsWithCode 0x3F m.s 1 ∧ EndsWithCode 0x00200000 (loaded 0x00200000 []) 2 ∧
      s.inFlight = some 0x000208E0 ∧ EndsWithCode 0x000208E0 s 4 := by
  refine ⟨rfl, rfl, by decide, by decide, by decide, rfl, by decide, by decide, by decide,
    .inl ⟨rfl, ?_⟩, .inr (.inl ⟨rfl, ?_, nop_with_imm_is_no_encoding⟩), rfl,
    .inr (.inr ⟨rfl, .sqrtratio 3 1 2,
      (loaded 0x000208E0 [(1, 2), (2, 1)]).clearError.fail .invalidPoint, by decide +kernel,
      eq_next_of_answer (by decide +kernel), rfl⟩)⟩
  · unfold ReservedOp; decide
  · unfold ReservedOp; decide

/-- A latency of 2, and two idle cycles after the acceptance. -/
theorem witness_BusyLastsExactlyTheLatency :
    let m : Clocked := ⟨State.reset, 0⟩
    let idle : CycleInput := ⟨true, none⟩
    1 ≤ (fun _ : Word => 2) 0 ∧ m.s.busy = false ∧ m.s.inFlight = none ∧
      (0x014 : Offset).toNat / 4 = 5 ∧ ([idle, idle].length = 2 ∧ [idle].length < 2) ∧
      ∀ c ∈ [idle, idle], c.rstN = true ∧
        ∀ o v, c.host = some (.write o v) → ¬ (o.toNat / 4 = 3 ∧ v.getLsbD 31 = true) := by
  refine ⟨by decide, rfl, rfl, by decide, by decide, ?_⟩
  intro c hc
  simp only [List.mem_cons, List.not_mem_nil, or_false, or_self] at hc
  subst hc
  exact ⟨rfl, by simp⟩

/-- Two blocks with different registers, flags and errors. -/
theorem witness_LatencyIsIndependentOfData :
    let m : Clocked := ⟨State.reset, 0⟩
    let m' : Clocked := ⟨(holding [(0, 5)]).writeEq true |>.recordError .invalidPoint false 7, 0⟩
    m'.s.busy = m.s.busy ∧ m'.s.inFlight = m.s.inFlight ∧ m'.left = m.left ∧
      runCycles (fun _ => 3) [⟨true, none⟩] m = .next m := by
  exact ⟨rfl, rfl, rfl, rfl⟩

/-- The constant indices where the two clauses meet. -/
theorem witness_FconstLoadsTheTable :
    (9 : BitVec 11).toNat ≤ 9 ∧ 9 < (10 : BitVec 11).toNat := by decide

theorem witness_ReductionsOfRawValues : (30 : RegIdx) ≠ 31 := by decide

/-- A value that is no multiple of p, and p, 1 and p − 1. -/
theorem witness_FinvIsTheInverse :
    (2 : FieldWord).toNat % fieldPrime ≠ 0 ∧ pv.toNat % fieldPrime = 0 ∧
      (1 : FieldWord).toNat % fieldPrime = 1 ∧ pm1.toNat % fieldPrime = fieldPrime - 1 := by
  decide +kernel

theorem witness_Pow22523IsThePair : (30 : RegIdx) ≠ 31 := by decide

theorem witness_FermatChainIsFinv :
    (Pseudo.finvchain 3 1 4).admits = true ∧ (Pseudo.finvchain 30 1 30).admits = true := by decide

/-! Registers as elements of ZMod p. -/

theorem val_holding (regs : List (RegIdx × FieldWord)) (r : RegIdx) (n : Nat)
    (h : ((holding regs).reg r).toNat = n) : (holding regs).val r = n := by
  rw [State.val, h]

/-- Of 0/1 the formula yields the root 0; of 1/0 none. -/
theorem witness_SqrtratioFollowsTheFormula :
    sqrtFormula (((holding [(2, 1)]).reg 1).toNat % fieldPrime)
        (((holding [(2, 1)]).reg 2).toNat % fieldPrime) = some 0 ∧
      sqrtFormula (((holding [(1, 1)]).reg 1).toNat % fieldPrime)
        (((holding [(1, 1)]).reg 2).toNat % fieldPrime) = none := by
  have h1 : ((holding [(2, 1)]).reg 1).toNat % fieldPrime = 0 := by decide +kernel
  have h2 : ((holding [(2, 1)]).reg 2).toNat % fieldPrime = 1 := by decide +kernel
  have h3 : ((holding [(1, 1)]).reg 1).toNat % fieldPrime = 1 := by decide +kernel
  have h4 : ((holding [(1, 1)]).reg 2).toNat % fieldPrime = 0 := by decide +kernel
  have h5 : 1 % fieldPrime = 1 := Nat.mod_eq_of_lt one_lt_fieldPrime
  rw [h1, h2, h3, h4]
  exact ⟨sqrtFormula_zero_left 1, sqrtFormula_zero_right (by rw [h5]; exact one_ne_zero)⟩

/-- 4/1 has the root 2; 1/0 has none. -/
theorem witness_SqrtratioFindsEveryRoot :
    (∃ r : ZMod fieldPrime, (holding [(1, 4), (2, 1)]).val 2 * r ^ 2 = (holding [(1, 4), (2, 1)]).val 1) ∧
      ¬ ∃ r : ZMod fieldPrime, (holding [(1, 1)]).val 2 * r ^ 2 = (holding [(1, 1)]).val 1 := by
  have _ : Fact (Nat.Prime fieldPrime) := ⟨fieldPrime_prime⟩
  rw [val_holding _ 1 4 (by decide +kernel), val_holding _ 2 1 (by decide +kernel),
    val_holding _ 1 1 (by decide +kernel), val_holding _ 2 0 (by decide +kernel)]
  refine ⟨⟨2, by norm_num⟩, ?_⟩
  rintro ⟨r, h⟩
  simp at h

/-- y = p, which is refused; and y = 1, whose root is 0. -/
theorem witness_DecompFollowsTheSteps :
    (28 : RegIdx).val % 4 = 0 ∧ fieldPrime ≤ ((holding [(0, pv)]).reg 0).toNat % 2 ^ 255 ∧
      (let y := ((holding [(0, 1)]).reg 0).toNat % 2 ^ 255
       y < fieldPrime ∧ sqrtFormula ((y * y + fieldPrime - 1) % fieldPrime)
         ((curveD * y * y + 1) % fieldPrime) = some 0) := by
  have h1 : ((holding [(0, 1)]).reg 0).toNat % 2 ^ 255 = 1 := by decide +kernel
  have h2 : (1 * 1 + fieldPrime - 1) % fieldPrime = 0 := by decide +kernel
  refine ⟨by decide, by decide +kernel, ?_⟩
  simp only [h1, h2]
  exact ⟨one_lt_fieldPrime, sqrtFormula_zero_left _⟩

/-- Z = 0 and Z = 1. -/
theorem witness_PcompEncodesTheAffinePoint :
    (28 : RegIdx).val % 4 = 0 ∧ State.reset.val (0 + 2) = 0 ∧ (holding [(2, 1)]).val (0 + 2) ≠ 0 := by
  have _ : Fact (Nat.Prime fieldPrime) := ⟨fieldPrime_prime⟩
  refine ⟨by decide, ?_, ?_⟩
  · exact (val_holding [] 2 0 (by decide +kernel)).trans (by simp)
  · rw [show (0 + 2 : RegIdx) = 2 from rfl, val_holding _ 2 1 (by decide +kernel)]; simp

/-- The point (0, 1), with the sign bit 0. -/
theorem witness_CompressOfDecompressIsTheEncoding :
    (4 : RegIdx).val % 4 = 0 ∧ ((holding [(0, 1)]).reg 0).toNat % 2 ^ 255 < fieldPrime ∧
      (1 : ZMod fieldPrime) = ((((holding [(0, 1)]).reg 0).toNat % 2 ^ 255 : Nat) : ZMod fieldPrime) ∧
      -(0 : ZMod fieldPrime) ^ 2 + 1 ^ 2 = 1 + curveDF * 0 ^ 2 * 1 ^ 2 ∧
      ¬ ((0 : ZMod fieldPrime) = 0 ∧ ((holding [(0, 1)]).reg 0).toNat / 2 ^ 255 = 1) := by
  have h1 : ((holding [(0, 1)]).reg 0).toNat % 2 ^ 255 = 1 := by decide +kernel
  have h2 : ((holding [(0, 1)]).reg 0).toNat / 2 ^ 255 = 0 := by decide +kernel
  refine ⟨by decide, ?_, ?_, by ring, ?_⟩
  · rw [h1]; exact one_lt_fieldPrime
  · rw [h1]; simp
  · rw [h2]; simp

/-- (0, 1), and (√−1, 0) of order 4, in extended coordinates. -/
theorem witness_represents :
    Represents ⟨0, 1, 1, 0⟩ 0 1 ∧ Represents ⟨sqrtM1, 0, 1, 0⟩ (sqrtM1 : ZMod fieldPrime) 0 := by
  have _ : Fact (Nat.Prime fieldPrime) := ⟨fieldPrime_prime⟩
  refine ⟨⟨one_ne_zero, by simp, by simp, by simp, by ring⟩,
    ⟨one_ne_zero, by simp, by simp, by simp, ?_⟩⟩
  linear_combination -sqrtM1_sq

theorem witness_fieldPoints :
    (holding [(1, 1), (2, 1), (4, BitVec.ofNat 256 sqrtM1), (6, 1)]).fieldPoint 0 = ⟨0, 1, 1, 0⟩ ∧
      (holding [(1, 1), (2, 1), (4, BitVec.ofNat 256 sqrtM1), (6, 1)]).fieldPoint 4 =
        ⟨sqrtM1, 0, 1, 0⟩ := by
  unfold State.fieldPoint
  simp only [show (0 + 1 : RegIdx) = 1 from rfl, show (0 + 2 : RegIdx) = 2 from rfl,
    show (0 + 3 : RegIdx) = 3 from rfl, show (4 + 1 : RegIdx) = 5 from rfl,
    show (4 + 2 : RegIdx) = 6 from rfl, show (4 + 3 : RegIdx) = 7 from rfl]
  rw [val_holding _ 0 0 (by decide +kernel), val_holding _ 1 1 (by decide +kernel),
    val_holding _ 2 1 (by decide +kernel), val_holding _ 3 0 (by decide +kernel),
    val_holding _ 4 sqrtM1 (by decide +kernel), val_holding _ 5 0 (by decide +kernel),
    val_holding _ 6 1 (by decide +kernel), val_holding _ 7 0 (by decide +kernel)]
  simp

/-- (0, 1) with Z = 1 and a T that is not x·y·Z. -/
theorem witness_projects : Projects ((holding [(1, 1), (2, 1), (3, 5)]).fieldPoint 0) 0 1 := by
  have _ : Fact (Nat.Prime fieldPrime) := ⟨fieldPrime_prime⟩
  unfold State.fieldPoint
  simp only [show (0 + 1 : RegIdx) = 1 from rfl, show (0 + 2 : RegIdx) = 2 from rfl,
    show (0 + 3 : RegIdx) = 3 from rfl]
  rw [val_holding _ 0 0 (by decide +kernel), val_holding _ 1 1 (by decide +kernel),
    val_holding _ 2 1 (by decide +kernel), val_holding _ 3 5 (by decide +kernel)]
  refine ⟨by simp, by simp, by simp, by ring⟩

theorem witness_DecompressOfCompressIsTheAffinePoint :
    (4 : RegIdx).val % 4 = 0 ∧ (0 : RegIdx).val % 4 = 0 ∧
      Projects ((holding [(1, 1), (2, 1), (3, 5)]).fieldPoint 0) 0 1 :=
  ⟨by decide, by decide, witness_projects⟩

theorem witness_PextExtendsThePair : (28 : RegIdx).val % 4 = 0 ∧ (30 : RegIdx) ≠ 31 := by decide

/-- As for PCOMP. -/
theorem witness_PaffNormalises :
    (28 : RegIdx).val % 4 = 0 ∧ (0 : RegIdx).val % 4 = 0 ∧ State.reset.val (0 + 2) = 0 ∧
      (holding [(2, 1)]).val (0 + 2) ≠ 0 :=
  ⟨by decide, by decide, witness_PcompEncodesTheAffinePoint.2⟩

/-- The premises of PADD, PSUB, PDBL, PNEG and PEQ on whatever the registers hold. -/
theorem witness_pointIndices :
    (28 : RegIdx).val % 4 = 0 ∧ (24 : RegIdx).val % 4 = 0 ∧ (0 : RegIdx).val % 4 = 0 := by decide

/-- (0, 1) and (√−1, 0), whose difference has order 4. -/
theorem witness_PaddIsTheGroupSum :
    let s := holding [(1, 1), (2, 1), (4, BitVec.ofNat 256 sqrtM1), (6, 1)]
    (8 : RegIdx).val % 4 = 0 ∧ (0 : RegIdx).val % 4 = 0 ∧ (4 : RegIdx).val % 4 = 0 ∧
      Represents (s.fieldPoint 0) 0 1 ∧ Represents (s.fieldPoint 4) (sqrtM1 : ZMod fieldPrime) 0 ∧
      (0 : ZMod fieldPrime) * 0 ≠ 1 * (sqrtM1 : ZMod fieldPrime) := by
  have _ : Fact (Nat.Prime fieldPrime) := ⟨fieldPrime_prime⟩
  dsimp only
  rw [witness_fieldPoints.1, witness_fieldPoints.2]
  refine ⟨by decide, by decide, by decide, witness_represents.1, witness_represents.2, ?_⟩
  intro h
  have := sqrtM1_sq
  rw [zero_mul, one_mul] at h
  rw [← h] at this
  norm_num at this

theorem witness_PdblIsTheGroupDouble :
    (8 : RegIdx).val % 4 = 0 ∧ (0 : RegIdx).val % 4 = 0 ∧
      Projects ((holding [(1, 1), (2, 1), (3, 5)]).fieldPoint 0) 0 1 :=
  ⟨by decide, by decide, witness_projects⟩

end Sys2Proof.Tests
end

section
/-! PROOFS. The state family (10_state.md): the invariant, what may change EQ, canonical results, the
control registers as the host reads and writes them, and the core's turn. -/

namespace Sys2Proof.Machine

variable {s t : State}

/-! ### What a transaction can do -/

/-- The effects a host transaction can have on the block, with what brings each about (R85, R86). -/
inductive HostEffect (s : State) : Transaction → State → Prop where
  /-- A write to a read-only or reserved offset (R58, R83). -/
  | ignored (off : Offset) (v : Word) : HostEffect s (.write off v) s
  /-- A write of CTRL with bit 31 set (R47, R352). -/
  | softReset (off : Offset) (v : Word) (hoff : off.toNat / 4 = 3) (hv : v.getLsbD 31 = true) :
      HostEffect s (.write off v) s.resetBlock
  /-- A write of CTRL with bit 31 clear (R47). -/
  | enables (off : Offset) (v : Word) (hoff : off.toNat / 4 = 3) (hv : v.getLsbD 31 = false) :
      HostEffect s (.write off v) { s with ieDone := v.getLsbD 0, ieErr := v.getLsbD 1 }
  /-- A write of STATUS (R48). -/
  | status (off : Offset) (v : Word) (hoff : off.toNat / 4 = 4) :
      HostEffect s (.write off v) (s.writeStatus v)
  /-- A write of CMD while BUSY = 0 (R49). -/
  | accepted (off : Offset) (w : Word) (hoff : off.toNat / 4 = 5) (hb : s.busy = false) :
      HostEffect s (.write off w) (s.accept w)
  /-- A write of CMD while BUSY = 1 (R315). -/
  | cmdDiscarded (off : Offset) (w : Word) (hoff : off.toNat / 4 = 5) (hb : s.busy = true) :
      HostEffect s (.write off w) (s.recordError .busyAccess false w)
  /-- A write of a word of a field register while BUSY = 0 (R86). -/
  | fieldWritten (off : Offset) (v : Word) (i : RegIdx) (j : Nat)
      (hslot : fieldSlot (align off) = some (i, j)) (hb : s.busy = false) :
      HostEffect s (.write off v) (s.writeReg i (setWord (s.reg i) j v))
  /-- A write of a word of a field register while BUSY = 1 (R89, R315). -/
  | fieldDiscarded (off : Offset) (v : Word) (i : RegIdx) (j : Nat)
      (hslot : fieldSlot (align off) = some (i, j)) (hb : s.busy = true) :
      HostEffect s (.write off v) (s.recordError .busyAccess true ((align off).setWidth 32))
  /-- A read that answers with a word of the block (R85). -/
  | answered (off : Offset) (w : Word) : HostEffect s (.read off) (s.answer w)
  /-- A read of a field register while BUSY = 1 (R89). -/
  | answeredFree (off : Offset) (hb : s.busy = true) : HostEffect s (.read off) s.answerFree

/-- Inversion of a write. -/
theorem busWrite_effect (s : State) (off : Offset) (v : Word) :
    HostEffect s (.write off v) (s.busWrite off v) := by
  rw [busWrite_eq]
  split_ifs with h3 h4 h5
  · unfold State.writeCtrl
    split_ifs with hv
    · exact .softReset off v h3 hv
    · exact .enables off v h3 (by simpa using hv)
  · exact .status off v h4
  · unfold State.writeCmd
    split_ifs with hb
    · exact .cmdDiscarded off v h5 hb
    · exact .accepted off v h5 (by simpa using hb)
  · split
    next i j hslot =>
      unfold State.writeField
      split_ifs with hb
      · exact .fieldDiscarded off v i j hslot hb
      · exact .fieldWritten off v i j hslot (by simpa using hb)
    next => exact .ignored off v

/-- Inversion of a read. -/
theorem busRead_effect (s : State) (off : Offset) : HostEffect s (.read off) (s.busRead off) := by
  unfold State.busRead
  split
  · split_ifs with hb
    · exact .answeredFree off hb
    · exact .answered off _
  · exact .answered off _

/-- Inversion of a transaction, whatever the state. -/
theorem transact_effect (s : State) (tr : Transaction) : HostEffect s tr (s.transact tr) := by
  cases tr with
  | write off v => exact busWrite_effect s off v
  | read off => exact busRead_effect s off

/-! ### What a write of STATUS leaves (R48, R55) -/

/-- DONE is cleared by bit 1, and ERR with its record by bit 2. -/
theorem writeStatus_eq (s : State) (v : Word) :
    s.writeStatus v =
      { s with
        done := s.done && !v.getLsbD 1
        err := s.err && !v.getLsbD 2
        errCode := if v.getLsbD 2 then 0 else s.errCode
        errSrc := s.errSrc && !v.getLsbD 2
        errInfo := if v.getLsbD 2 then 0 else s.errInfo } := by
  unfold State.writeStatus State.clearError
  generalize v.getLsbD 1 = clearsDone
  generalize v.getLsbD 2 = clearsErr
  cases clearsDone <;> cases clearsErr <;> simp

/-! ### The invariant is kept by every operation -/

theorem Inv.advance (h : Inv s) : Inv s.advance := { h with }

theorem inv_resetBlock (s : State) : Inv s.resetBlock :=
  ⟨by simp, by simp, by simp, by simp, by simp, by simp, by simp⟩

theorem Inv.accept (h : Inv s) (w : Word) : Inv (s.accept w) :=
  { h with
    busy_iff := by simp
    lastCmd_of_inFlight := by simp
    done_of_busy := fun _ => rfl }

/-- A completion that leaves the error record (R56). -/
theorem Inv.of_completes (h : Inv s) (hc : Completes s t) (he : SameError s t) : Inv t := by
  obtain ⟨herr, hcode, hsrc, hinfo⟩ := he
  exact
    { busy_iff := by simp [hc.busy, hc.inFlight]
      lastCmd_of_inFlight := by simp [hc.inFlight]
      done_of_busy := by simp [hc.busy]
      err_iff := by rw [herr, hcode]; exact h.err_iff
      code_le := by rw [hcode]; exact h.code_le
      src_code := by rw [hsrc, hcode]; exact h.src_code
      info_of_noErr := by rw [herr, hinfo]; exact h.info_of_noErr }

theorem Inv.complete (h : Inv s) : Inv s.complete :=
  h.of_completes (completes_complete rfl rfl rfl rfl rfl rfl) ⟨rfl, rfl, rfl, rfl⟩

/-- R50: the codes are 1 to 4. -/
theorem ErrorCode.code_range (e : ErrorCode) : e.code ≠ 0 ∧ e.code.toNat ≤ 4 := by
  cases e <;> decide

/-- R311: a recorded error leaves a record the invariant allows; only a busy access has SRC = 1. -/
theorem Inv.recordError (h : Inv s) {e : ErrorCode} {src : Bool} (info : Word)
    (hsrc : src = true → e = .busyAccess) : Inv (s.recordError e src info) := by
  cases herr : s.err with
  | true => simpa [State.recordError, herr] using h
  | false =>
    obtain ⟨hne, hle⟩ := e.code_range
    rw [show s.recordError e src info =
      { s with err := true, errCode := e.code, errSrc := src, errInfo := info } by
        simp [State.recordError, herr]]
    exact
      { h with
        err_iff := by simpa using hne
        code_le := hle
        src_code := fun hs => by rw [hsrc hs]; rfl
        info_of_noErr := by simp }

theorem Inv.fail (h : Inv s) (e : ErrorCode) : Inv (s.fail e) :=
  (h.recordError s.currentWord (by simp)).complete

theorem Inv.clearError (h : Inv s) : Inv s.clearError :=
  { h with
    err_iff := by simp
    code_le := by simp
    src_code := by simp
    info_of_noErr := fun _ => rfl }

theorem Inv.writeStatus (h : Inv s) (v : Word) : Inv (s.writeStatus v) := by
  have hdone : Inv { s with done := false } := { h with done_of_busy := fun _ => rfl }
  unfold State.writeStatus
  dsimp only
  split_ifs
  · exact hdone.clearError
  · exact h.clearError
  · exact hdone
  · exact h

/-- Every effect of the host keeps the invariant. -/
theorem Inv.hostEffect {tr : Transaction} (h : Inv s) (he : HostEffect s tr t) : Inv t := by
  cases he with
  | ignored => exact h
  | softReset => exact inv_resetBlock s
  | enables => exact { h with }
  | status => exact h.writeStatus _
  | accepted => exact h.accept _
  | cmdDiscarded => exact h.recordError _ (fun _ => rfl)
  | fieldWritten => exact { h with }
  | fieldDiscarded => exact h.recordError _ (fun _ => rfl)
  | answered => exact { h with }
  | answeredFree => exact { h with }

theorem Succeeds.completes {i : Instr} (h : Succeeds i s t) : Completes s t := by
  rcases h with ⟨-, h⟩ | ⟨-, h⟩
  · exact h.completes
  · exact h.completes

theorem Succeeds.sameError {i : Instr} (h : Succeeds i s t) : SameError s t := by
  rcases h with ⟨-, -, h, -⟩ | ⟨-, -, h, -⟩
  · exact h
  · exact h

/-- The core's turn keeps the invariant. -/
theorem Inv.coreStep (h : Inv s) (ht : coreStep s = .next t) : Inv t := by
  obtain ⟨u, hu, hcases⟩ := coreStep_next (s := s)
  obtain rfl : u = t := by simpa [hu] using ht
  rcases hcases with ⟨-, rfl⟩ | ⟨w, -, ⟨i, -, hs⟩ | ⟨e, rfl⟩⟩
  · exact h
  · exact h.of_completes hs.completes hs.sameError
  · exact h.fail e

/-- Settles O14: each of the step's inputs is an operation that keeps the invariant. -/
theorem stepKeepsTheInvariant : Obligations.StepKeepsTheInvariant := by
  intro s t h ht
  rcases step_cases s with ⟨-, hs⟩ | ⟨tr, -, hs⟩ | ⟨-, hs⟩ | ⟨-, hs⟩
  · exact h.advance.coreStep (hs.symm.trans ht)
  · obtain rfl : s.advance.transact tr = t := by simpa [hs] using ht
    exact h.advance.hostEffect (transact_effect _ tr)
  · obtain rfl : s.advance.resetBlock = t := by simpa [hs] using ht
    exact inv_resetBlock _
  · simp [hs] at ht

/-! ### EQ (R52) -/

@[simp] theorem State.writeStatus_flag (s : State) (v : Word) : (s.writeStatus v).eq = s.eq := by
  rw [writeStatus_eq]

/-- The host leaves EQ, unless it resets the block. -/
theorem HostEffect.flag {tr : Transaction} (he : HostEffect s tr t) :
    t.eq = s.eq ∨ ∃ off v, tr = .write off v ∧ off.toNat / 4 = 3 ∧ v.getLsbD 31 = true := by
  cases he with
  | softReset off v hoff hv => exact .inr ⟨off, v, rfl, hoff, hv⟩
  | _ => left; simp

/-- The core's turn leaves EQ, unless it completes a compare. -/
theorem coreStep_flag (ht : coreStep s = .next t) :
    t.eq = s.eq ∨ ∃ w i, s.inFlight = some w ∧ decode w = .ok i ∧ isCompare i = true := by
  obtain ⟨u, hu, hcases⟩ := coreStep_next (s := s)
  obtain rfl : u = t := by simpa [hu] using ht
  rcases hcases with ⟨-, rfl⟩ | ⟨w, hw, ⟨i, hd, ⟨hc, -⟩ | ⟨-, -, -, heq, -⟩⟩ | ⟨e, rfl⟩⟩
  · exact .inl rfl
  · exact .inr ⟨w, i, hw, hd, hc⟩
  · exact .inl heq
  · exact .inl (State.fail_eq s e)

/-- Settles O15: the core's turn writes EQ for a compare only, the host's for a soft reset only. -/
theorem eqChangesOnlyByCompareOrReset : Obligations.EqChangesOnlyByCompareOrReset := by
  intro s t ht hne
  rcases step_cases s with ⟨hcore, hs⟩ | ⟨tr, hhead, hs⟩ | ⟨hhead, -⟩ | ⟨-, hs⟩
  · exact .inl ⟨hcore, (coreStep_flag (hs.symm.trans ht)).resolve_left hne⟩
  · obtain rfl : s.advance.transact tr = t := by simpa [hs] using ht
    obtain ⟨off, v, rfl, hreset⟩ := (transact_effect s.advance tr).flag.resolve_left hne
    exact .inr (.inr ⟨off, v, hhead, hreset⟩)
  · exact .inr (.inl hhead)
  · simp [hs] at ht

/-! ### Canonical results (R37, R151) -/

/-- What every meaning but FMOV's and PCOMP's does: it leaves canonical values in its destinations, or
ends with an error. -/
def RunsCanonically (i : Instr) (s : State) (o : Host.Outcome State Fault Refusal) : Prop :=
  ∃ t, o = .next t ∧ ((∀ r ∈ dests i, Canonical (t.reg r)) ∨ ∃ e, t = s.fail e)

theorem runsCanonically_finish {i : Instr} (h : ∀ r ∈ dests i, Canonical (t.complete.reg r)) :
    RunsCanonically i s (finish t) := ⟨_, rfl, .inl h⟩

theorem runsCanonically_guardOperands {i : Instr} {run} (ok : Bool) (h : RunsCanonically i s run) :
    RunsCanonically i s (guardOperands ok s run) := by
  cases ok
  · exact ⟨_, rfl, .inr ⟨.illegalOperand, rfl⟩⟩
  · exact h

theorem runsCanonically_finishOr_map {α : Type} {i : Instr} {e : ErrorCode} (o : Option α)
    (g : α → State) (h : ∀ a, o = some a → ∀ r ∈ dests i, Canonical ((g a).complete.reg r)) :
    RunsCanonically i s (finishOr e s (o.map g)) := by
  cases o with
  | none => exact ⟨_, rfl, .inr ⟨e, rfl⟩⟩
  | some a => exact runsCanonically_finish (h a rfl)

theorem canonical_ofNat {v : Nat} (h : v < fieldPrime) : Canonical (BitVec.ofNat 256 v) := by
  rw [Canonical, toNat_ofNat_fieldPrime h]; exact h

theorem canonical_writeNat (s : State) (d : RegIdx) {v : Nat} (h : v < fieldPrime) :
    ∀ r ∈ [d], Canonical ((s.writeNat d v).complete.reg r) := by
  simpa [State.writeNat] using canonical_ofNat h

theorem canonical_writePair (s : State) (d : RegIdx) {v : Nat × Nat} (h1 : v.1 < fieldPrime)
    (h2 : v.2 < fieldPrime) : ∀ r ∈ [d, d + 1], Canonical ((s.writePair d v).complete.reg r) := by
  obtain ⟨e1, e2⟩ := writePair_regs s d v
  simpa [e1, e2] using And.intro (canonical_ofNat h1) (canonical_ofNat h2)

theorem canonical_writePoint (s : State) (d : RegIdx) {q : Point} (h : q.Reduced) :
    ∀ r ∈ [d, d + 1, d + 2, d + 3], Canonical ((s.writePoint d q).complete.reg r) := by
  obtain ⟨-, -, -, -, hc⟩ := holdsPoint_writePoint s d h
  exact hc

theorem scalarOrder_bounds : 0 < scalarOrder ∧ scalarOrder ≤ fieldPrime := by decide +kernel

/-- R206: a result modulo ℓ is below p too. -/
theorem mod_scalarOrder_lt (n : Nat) : n % scalarOrder < fieldPrime := by
  obtain ⟨hpos, hle⟩ := scalarOrder_bounds
  exact lt_of_lt_of_le (Nat.mod_lt n hpos) hle

theorem chainP_lt (x : Nat) : (chainP x).1 < fieldPrime ∧ (chainP x).2 < fieldPrime := by
  simp only [chainP]
  exact ⟨powP_lt x _ chain_exp_lt, powP_lt x 3 (by norm_num)⟩

/-- Every command but FMOV and PCOMP runs so. -/
theorem exec_runsCanonically (i : Instr) (s : State) (hi : ∀ d a, i ≠ .fmov d a ∧ i ≠ .pcomp d a) :
    RunsCanonically i s (exec i s) := by
  cases i with
  | nop => exact runsCanonically_finish (by simp [dests])
  | fadd d a b => exact runsCanonically_finish (canonical_writeNat s d (addP_lt _ _))
  | fsub d a b => exact runsCanonically_finish (canonical_writeNat s d (subP_lt _ _))
  | fneg d a => exact runsCanonically_finish (canonical_writeNat s d (negP_lt _))
  | fmul d a b => exact runsCanonically_finish (canonical_writeNat s d (mulP_lt _ _))
  | fsqr d a => exact runsCanonically_finish (canonical_writeNat s d (sqrP_lt _))
  | fmov d a => exact absurd rfl (hi d a).1
  | fconst d c =>
    refine runsCanonically_finishOr_map (constTable c.toNat) (s.writeReg d) fun v hv => ?_
    simpa [dests] using constTable_canonical hv
  | feq a b => exact runsCanonically_finish (by simp [dests])
  | fred d a => exact runsCanonically_finish (canonical_writeNat s d (red_lt s a))
  | redp d a =>
    exact runsCanonically_guardOperands _ (runsCanonically_finish
      (canonical_writeNat s d (Nat.mod_lt _ fieldPrime_pos)))
  | redl d a =>
    exact runsCanonically_guardOperands _ (runsCanonically_finish
      (canonical_writeNat s d (mod_scalarOrder_lt _)))
  | finv d a => exact runsCanonically_finish (canonical_writeNat s d (invP_lt _))
  | fpow2 d a k => exact runsCanonically_finish (canonical_writeNat s d (pow2P_lt _ _ (red_lt s a)))
  | pow22523 d a =>
    obtain ⟨h1, h2⟩ := chainP_lt (s.red a)
    exact runsCanonically_guardOperands _ (runsCanonically_finish (canonical_writePair s d h1 h2))
  | sqrtratio d a b =>
    rw [exec, execSqrtratio]
    exact runsCanonically_finishOr_map (sqrtRatio (s.red a) (s.red b)) (s.writeNat d)
      fun v hv => canonical_writeNat s d (sqrtRatio_lt hv)
  | decomp d a =>
    exact runsCanonically_guardOperands _ (runsCanonically_finishOr_map (decompress (s.reg a))
      (s.writePoint d) fun q hq => canonical_writePoint s d (decompress_reduced hq))
  | pcomp d a => exact absurd rfl (hi d a).2
  | pext d a =>
    exact runsCanonically_guardOperands _ (runsCanonically_finish
      (canonical_writePoint s d (extend_reduced (red_lt s a) (red_lt s (a + 1)))))
  | paff d a =>
    refine runsCanonically_guardOperands _ (runsCanonically_finishOr_map (toAffine (s.point a))
      (fun q => s.writePoint d (extend q.1 q.2)) fun q hq => ?_)
    obtain ⟨hx, hy⟩ := toAffine_lt hq
    exact canonical_writePoint s d (extend_reduced hx hy)
  | padd d a b =>
    exact runsCanonically_guardOperands _ (runsCanonically_finish
      (canonical_writePoint s d (addPoint_reduced _ _)))
  | psub d a b =>
    exact runsCanonically_guardOperands _ (runsCanonically_finish
      (canonical_writePoint s d (addPoint_reduced _ _)))
  | pdbl d a =>
    exact runsCanonically_guardOperands _ (runsCanonically_finish
      (canonical_writePoint s d (doublePoint_reduced _)))
  | pneg d a =>
    exact runsCanonically_guardOperands _ (runsCanonically_finish
      (canonical_writePoint s d (negPoint_reduced (point_reduced s a))))
  | peq a b => exact runsCanonically_guardOperands _ (runsCanonically_finish (by simp [dests]))

/-- What a command leaves in the registers depends on the registers alone. -/
theorem exec_f_congr {i : Instr} {s s' t t' : State} (hf : s.f = s'.f) (h : exec i s = .next t)
    (h' : exec i s' = .next t') : t.f = t'.f := by
  obtain ⟨r, hr⟩ := exec_gives i s.f
  obtain rfl : r.apply s = t := by simpa [hr s rfl] using h
  obtain rfl : r.apply s' = t' := by simpa [hr s' hf.symm] using h'
  exact r.apply_f_congr hf

/-- A command changes its destinations only. -/
theorem exec_sameRegs {i : Instr} (h : exec i s = .next t) : SameRegs (dests i) s t := by
  obtain ⟨u, hu, hs | ⟨e, rfl⟩⟩ := exec_runs i s
  · obtain rfl : u = t := by simpa [hu] using h
    rcases hs with ⟨-, -, -, hregs⟩ | ⟨-, -, -, -, hregs⟩
    · exact fun r _ => hregs r List.not_mem_nil
    · exact hregs
  · obtain rfl : s.fail e = t := by simpa [hu] using h
    exact fun r _ => State.reg_fail s e r

/-- The destinations are canonical where the command ends without an error. -/
theorem canonical_dests_of_endsWithoutError {i : Instr} (h : exec i s = .next t)
    (hi : ∀ d a, i ≠ .fmov d a ∧ i ≠ .pcomp d a) (hok : EndsWithoutError i s) :
    ∀ r ∈ dests i, Canonical (t.reg r) := by
  obtain ⟨u, hu, herr⟩ := hok
  obtain ⟨u', hu', hcan | ⟨e, rfl⟩⟩ := exec_runsCanonically i s.clearError hi
  · obtain rfl : u' = u := by simpa [hu'] using hu
    intro r hr
    rw [State.reg_congr (exec_f_congr (State.clearError_f s).symm h hu) r]
    exact hcan r hr
  · obtain rfl : s.clearError.fail e = u := by simpa [hu'] using hu
    simp at herr

/-- A register that such a command changes is canonical, whether or not ERR was set. -/
theorem canonical_of_reg_ne {i : Instr} (h : exec i s = .next t)
    (hi : ∀ d a, i ≠ .fmov d a ∧ i ≠ .pcomp d a) {r : RegIdx} (hr : t.reg r ≠ s.reg r) :
    Canonical (t.reg r) := by
  obtain ⟨u, hu, hcan | ⟨e, rfl⟩⟩ := exec_runsCanonically i s hi
  · obtain rfl : u = t := by simpa [hu] using h
    exact hcan r (by_contra fun hd => hr (exec_sameRegs h r hd))
  · obtain rfl : s.fail e = t := by simpa [hu] using h
    exact absurd (State.reg_fail s e r) hr

/-- Settles O19: a command ends with an error, or with canonical values in its destinations. -/
theorem resultsAreCanonical : Obligations.ResultsAreCanonical :=
  fun _ _ _ h hi => ⟨canonical_dests_of_endsWithoutError h hi, fun _ => canonical_of_reg_ne h hi⟩

/-! ### The control registers as read (R44 to R51) -/

theorem ctrlWord_toNat (s : State) : s.ctrlWord.toNat = s.ieDone.toNat + 2 * s.ieErr.toNat := by
  have h0 := s.ieDone.toNat_le; have h1 := s.ieErr.toNat_le
  rw [State.ctrlWord, BitVec.toNat_ofNat, Nat.mod_eq_of_lt (by omega)]

theorem statusWord_toNat (s : State) :
    s.statusWord.toNat = s.busy.toNat + 2 * s.done.toNat + 4 * s.err.toNat + 8 * s.eq.toNat := by
  have h0 := s.busy.toNat_le; have h1 := s.done.toNat_le
  have h2 := s.err.toNat_le; have h3 := s.eq.toNat_le
  rw [State.statusWord, BitVec.toNat_ofNat, Nat.mod_eq_of_lt (by omega)]

theorem errCodeWord_toNat (s : State) :
    s.errCodeWord.toNat = s.errCode.toNat + 256 * s.errSrc.toNat := by
  have h0 := s.errCode.isLt; have h1 := s.errSrc.toNat_le
  rw [State.errCodeWord, BitVec.toNat_ofNat, Nat.mod_eq_of_lt (by omega)]

/-- A read outside the field registers answers with the control register of its word. -/
theorem busRead_of_control (s : State) {off : Offset}
    (h : off.toNat / 4 < 0x40 ∨ 0x140 ≤ off.toNat / 4) :
    s.busRead off = s.answer (s.controlRead (align off)) := by
  rw [State.busRead, fieldSlot_align_none off h]

/-- R83: the reserved offsets read 0. -/
theorem controlRead_reserved (s : State) {off : Offset} (h : 8 ≤ off.toNat / 4) :
    s.controlRead (align off) = 0 := by
  rw [controlRead_align]
  repeat rw [if_neg (by omega)]

/-- Settles O21: the word answered is `controlRead`'s, register by register. -/
theorem controlRegistersReadAsTheirWords : Obligations.ControlRegistersReadAsTheirWords := by
  intro s off hhead hoff
  refine ⟨_, s.advance.controlRead (align off), step_of_host hhead,
    busRead_of_control s.advance hoff, ?_⟩
  refine ⟨fun h => ?id, fun h => ?version, fun h => ?param, fun h => ?ctrl, fun h => ?status,
    fun h => ?cmd, fun h => ?errCode, fun h => ?errInfo, controlRead_reserved s.advance⟩
  case ctrl => simpa [controlRead_align, h] using ctrlWord_toNat s.advance
  case status => simpa [controlRead_align, h] using statusWord_toNat s.advance
  case errCode => simpa [controlRead_align, h] using errCodeWord_toNat s.advance
  all_goals simp [controlRead_align, h, idWord, versionWord, paramWord]

/-! ### Writes of the control registers -/

theorem busWrite_of_ctrl (s : State) {off : Offset} (v : Word) (h : off.toNat / 4 = 3) :
    s.busWrite off v = s.writeCtrl v := by
  rw [busWrite_eq, if_pos h]

theorem busWrite_of_status (s : State) {off : Offset} (v : Word) (h : off.toNat / 4 = 4) :
    s.busWrite off v = s.writeStatus v := by
  rw [busWrite_eq, if_neg (by omega), if_pos h]

theorem busWrite_of_cmd (s : State) {off : Offset} (v : Word) (h : off.toNat / 4 = 5) :
    s.busWrite off v = s.writeCmd v := by
  rw [busWrite_eq, if_neg (by omega), if_neg (by omega), if_pos h]

/-- R58, R83: every other offset outside the field registers ignores writes. -/
theorem busWrite_of_readOnly (s : State) {off : Offset} (v : Word)
    (h : off.toNat / 4 ≤ 2 ∨ (6 ≤ off.toNat / 4 ∧ off.toNat / 4 < 0x40) ∨ 0x140 ≤ off.toNat / 4) :
    s.busWrite off v = s := by
  rw [busWrite_eq, if_neg (by omega), if_neg (by omega), if_neg (by omega),
    fieldSlot_align_none off (by omega)]

/-- The step of a write. -/
theorem step_of_write {off : Offset} {v : Word} (h : s.events.head? = some (.host (.write off v))) :
    step s = .next (s.advance.busWrite off v) := step_of_host h

/-- Settles O22: the write leaves the state the input was taken from. -/
theorem writesToReadOnlyOffsetsAreIgnored : Obligations.WritesToReadOnlyOffsetsAreIgnored := by
  intro s off v hhead hoff
  rw [step_of_write hhead, busWrite_of_readOnly _ v hoff]; rfl

/-- Settles O28: CTRL takes the enables, STATUS clears what is written 1. -/
theorem ctrlAndStatusWritesTakeEffect : Obligations.CtrlAndStatusWritesTakeEffect := by
  intro s off v hhead
  rw [step_of_write hhead]
  refine ⟨fun hctrl hv => ?_, fun hstatus => ?_⟩
  · rw [busWrite_of_ctrl _ v hctrl, State.writeCtrl, hv]; rfl
  · rw [busWrite_of_status _ v hstatus, writeStatus_eq]; rfl

/-- Settles O23: CMD is accepted. -/
theorem commandIsAcceptedWhenIdle : Obligations.CommandIsAcceptedWhenIdle := by
  intro s off w hhead hoff hbusy
  rw [step_of_write hhead, busWrite_of_cmd _ w hoff, State.writeCmd, State.advance_busy, hbusy]; rfl

/-! ### The core's turn and the interrupt -/

/-- Settles O7: the core's turn, at the state the input was taken from. -/
theorem stepRunsTheDecodedCommand : Obligations.StepRunsTheDecodedCommand :=
  fun s _ _ hcore hw hd =>
    (step_of_coreIsNext hcore).trans (coreStep_of_decode (s := s.advance) hw hd)

/-- The core's turn with nothing in flight (R56). -/
theorem coreStep_of_idle (h : s.inFlight = none) : coreStep s = .next s := by
  simp [coreStep, h]

/-- Settles O9: with nothing in flight the core's turn is empty. -/
theorem coreIdlesWithNothingInFlight : Obligations.CoreIdlesWithNothingInFlight :=
  fun s hcore hidle => (step_of_coreIsNext hcore).trans (coreStep_of_idle (s := s.advance) hidle)

/-- Settles O29: the two sources of the line. -/
theorem irqIsTheEnabledStatus : Obligations.IrqIsTheEnabledStatus := by
  intro s
  simp [State.irq]

end Sys2Proof.Machine
end

section
/-! PROOFS. The memory family (20_memory.md): the words of the field registers as the host reads and
writes them, the offset's low bits, the byte order, and what a busy block keeps from the host. -/

namespace Sys2Proof.Machine

variable {s t : State}

/-! ### A busy block (R89, R95) -/

@[simp] theorem State.writeStatus_f (s : State) (v : Word) : (s.writeStatus v).f = s.f := by
  rw [writeStatus_eq]

@[simp] theorem State.writeStatus_lastCmd (s : State) (v : Word) :
    (s.writeStatus v).lastCmd = s.lastCmd := by rw [writeStatus_eq]

@[simp] theorem State.writeStatus_inFlight (s : State) (v : Word) :
    (s.writeStatus v).inFlight = s.inFlight := by rw [writeStatus_eq]

@[simp] theorem State.writeStatus_busy (s : State) (v : Word) :
    (s.writeStatus v).busy = s.busy := by rw [writeStatus_eq]

/-- While BUSY = 1 the host leaves the registers and the command in flight, unless it resets the
block: the writes that would change them are discarded (R315). -/
theorem HostEffect.keeps_command {tr : Transaction} (he : HostEffect s tr t)
    (hb : s.busy = true) :
    (t.f = s.f ∧ t.lastCmd = s.lastCmd ∧ t.inFlight = s.inFlight ∧ t.busy = true) ∨
      ∃ off v, tr = .write off v ∧ off.toNat / 4 = 3 ∧ v.getLsbD 31 = true := by
  cases he with
  | softReset off v hoff hv => exact .inr ⟨off, v, rfl, hoff, hv⟩
  | accepted _ _ _ hidle => simp [hidle] at hb
  | fieldWritten _ _ _ _ _ hidle => simp [hidle] at hb
  | _ => left; simp [hb]

/-- Settles O18: the host changes these by a soft reset only, which is not next. -/
theorem busyBlockIsTheCores : Obligations.BusyBlockIsTheCores := by
  intro s t tr hhead hbusy hnoReset ht
  obtain rfl : s.advance.transact tr = t := by simpa [step_of_host hhead] using ht
  have he := transact_effect s.advance tr
  have hnoSoftReset : ¬ ∃ off v, tr = .write off v ∧ off.toNat / 4 = 3 ∧ v.getLsbD 31 = true := by
    rintro ⟨off, v, rfl, hreset⟩
    exact hnoReset (.inr ⟨off, v, hhead, hreset⟩)
  obtain ⟨hf, hlast, hflight, hstill⟩ := (he.keeps_command hbusy).resolve_right hnoSoftReset
  have heq : (s.advance.transact tr).eq = s.eq := he.flag.resolve_right hnoSoftReset
  exact ⟨fun r _ => State.reg_congr hf r, heq, hlast, hflight, hstill⟩

/-! ### The words of a field register (R85 to R87) -/

/-- R86: the write at 0x100 + 32·i + 4·j. -/
theorem busWrite_of_field (s : State) {off : Offset} (v : Word) {i : RegIdx} {j : Fin 8}
    (h : off.toNat / 4 = 0x40 + 8 * i.val + j.val) :
    s.busWrite off v = s.writeField (align off) i j v := by
  rw [busWrite_eq, if_neg (by omega), if_neg (by omega), if_neg (by omega),
    fieldSlot_align off i j h]

/-- R85, R89: the read at 0x100 + 32·i + 4·j. -/
theorem busRead_of_field (s : State) {off : Offset} {i : RegIdx} {j : Fin 8}
    (h : off.toNat / 4 = 0x40 + 8 * i.val + j.val) :
    s.busRead off = if s.busy then s.answerFree else s.answer (getWord (s.reg i) j) := by
  rw [State.busRead, fieldSlot_align off i j h]

/-- The write is not discarded while BUSY = 0. -/
theorem writeField_of_idle (h : s.busy = false) (o : Offset) (i : RegIdx) (j : Nat) (v : Word) :
    s.writeField o i j v = s.writeReg i (setWord (s.reg i) j v) := by
  simp [State.writeField, h]

/-- Settles O25: the write of a register in which `setWord` has replaced one word. -/
theorem fieldWordWriteReplacesOneWord : Obligations.FieldWordWriteReplacesOneWord := by
  intro s off v i j hhead hoff hidle
  have hstep : step s = .next (s.advance.writeReg i (setWord (s.reg i) j v)) := by
    rw [step_of_write hhead, busWrite_of_field _ v hoff,
      writeField_of_idle (s := s.advance) hidle, State.reg_advance]
  refine ⟨_, hstep, fun b hb => ?bits, fun r hr => ?others, rfl⟩
  case bits => rw [State.reg_writeReg_self, getLsbD_setWord _ _ _ _ hb]
  case others => exact State.reg_writeReg_of_ne _ (by simpa using hr) _

/-- Settles O26: the word is a free value while BUSY = 1, else the register's. -/
theorem fieldWordReadAnswersOneWord : Obligations.FieldWordReadAnswersOneWord := by
  intro s off i j hhead hoff
  have hstep : step s = .next (s.advance.busRead off) := step_of_host hhead
  rw [busRead_of_field _ hoff, State.advance_busy, State.reg_advance] at hstep
  by_cases hbusy : s.busy
  · rw [if_pos hbusy] at hstep
    exact ⟨_, Config.freeRead s.draws, hstep, rfl, by simp [hbusy]⟩
  · rw [if_neg hbusy] at hstep
    exact ⟨_, getWord (s.reg i) j, hstep, rfl, fun _ => ⟨rfl, fun b => getLsbD_getWord _ _ b⟩⟩

/-! ### The low bits of an offset (R91) -/

/-- A write acts on the word its offset lies in. -/
theorem busWrite_congr (s : State) {off off' : Offset} (v : Word)
    (h : off.toNat / 4 = off'.toNat / 4) : s.busWrite off v = s.busWrite off' v := by
  simp only [State.busWrite, align_congr h]

/-- A read acts on the word its offset lies in. -/
theorem busRead_congr (s : State) {off off' : Offset} (h : off.toNat / 4 = off'.toNat / 4) :
    s.busRead off = s.busRead off' := by
  simp only [State.busRead, align_congr h]

/-- Settles O27: the transactions see the offset through `align` alone. -/
theorem addressLowBitsAreIgnored : Obligations.AddressLowBitsAreIgnored :=
  fun _ _ _ _ v h =>
    ⟨congrArg Host.Outcome.next (busWrite_congr _ v h),
      congrArg Host.Outcome.next (busRead_congr _ h)⟩

/-! ### The byte order (R88) -/

/-- Byte m of word j is byte 4j + m of the serialisation. -/
theorem getByte_eq_extractLsb'_getWord (v : FieldWord) (j : Nat) {m : Nat} (hm : m < 4) :
    getByte v (4 * j + m) = (getWord v j).extractLsb' (8 * m) 8 := by
  ext b hb
  have hbit : 8 * (4 * j + m) + b = 32 * j + (8 * m + b) := by omega
  rw [← BitVec.getLsbD_eq_getElem, ← BitVec.getLsbD_eq_getElem, getByte,
    BitVec.getLsbD_extractLsb', BitVec.getLsbD_extractLsb', getLsbD_getWord v j _ (by omega), hbit]

/-- The word a host makes of a word's four bytes is that word. -/
theorem wordOfBytes_extractLsb' (w : Word) :
    wordOfBytes (w.extractLsb' 0 8) (w.extractLsb' 8 8) (w.extractLsb' 16 8) (w.extractLsb' 24 8) =
      w := by
  have hlt := w.isLt
  apply BitVec.eq_of_toNat_eq
  simp only [wordOfBytes, BitVec.toNat_ofNat, BitVec.extractLsb'_toNat, Nat.shiftRight_eq_div_pow]
  omega

/-- Settles O30: byte k is byte k mod 4 of word k div 4, and the word is made of its own bytes. -/
theorem serialisationIsLittleEndian : Obligations.SerialisationIsLittleEndian := by
  intro v
  refine ⟨fun k _ => ?byte, fun j _ => ?word⟩
  case byte =>
    have h := getByte_eq_extractLsb'_getWord v (k / 4) (Nat.mod_lt k (by omega : 0 < 4))
    rwa [Nat.div_add_mod] at h
  case word =>
    have h0 := getByte_eq_extractLsb'_getWord v j (m := 0) (by omega)
    rw [Nat.add_zero] at h0
    rw [h0, getByte_eq_extractLsb'_getWord v j (m := 1) (by omega),
      getByte_eq_extractLsb'_getWord v j (m := 2) (by omega),
      getByte_eq_extractLsb'_getWord v j (m := 3) (by omega)]
    exact wordOfBytes_extractLsb' _

end Sys2Proof.Machine
end

section
/-! PROOFS. The encoding family (30_encoding.md): a word decodes to a command exactly when it is that
command's encoding, and which of the two errors every other word decodes to. -/

namespace Sys2Proof

open Machine

variable {w : Word}

/-! ### What the checks of a field accept (R128 to R131) -/

@[simp] theorem Kind.accepts_unused (r : RegIdx) : Kind.unused.accepts r ↔ r = 0 := by
  simp [Kind.accepts]

@[simp] theorem Kind.accepts_f (r : RegIdx) : Kind.f.accepts r := rfl

@[simp] theorem Kind.accepts_w (r : RegIdx) : Kind.w.accepts r ↔ PairIdx r := by
  simp [Kind.accepts]

@[simp] theorem Kind.accepts_p (r : RegIdx) : Kind.p.accepts r ↔ PointIdx r := by
  simp [Kind.accepts]

@[simp] theorem ImmKind.accepts_unused (c : BitVec 11) : ImmKind.unused.accepts c ↔ c = 0 := by
  simp [ImmKind.accepts, ← BitVec.toNat_inj]

@[simp] theorem ImmKind.accepts_const (c : BitVec 11) : ImmKind.const.accepts c ↔ ConstIdx c := by
  simp [ImmKind.accepts]

@[simp] theorem ImmKind.accepts_count (c : BitVec 11) : ImmKind.count.accepts c := rfl

theorem Row.accepts_iff (r : Row) (w : Word) :
    r.accepts w ↔ r.rd.accepts (rdField w) ∧ r.ra.accepts (raField w) ∧
      r.rb.accepts (rbField w) ∧ r.imm.accepts (immField w) := by
  simp [Row.accepts, and_assoc]

/-! ### A legal word is the encoding of its command (R128, R133) -/

/-- Command words differ when a field differs. -/
@[simp] theorem commandWord_inj {op op' : BitVec 6} {rd rd' ra ra' rb rb' : RegIdx}
    {k k' : BitVec 11} :
    commandWord op rd ra rb k = commandWord op' rd' ra' rb' k' ↔
      op = op' ∧ rd = rd' ∧ ra = ra' ∧ rb = rb' ∧ k = k' := by
  refine ⟨fun h => ?_, by rintro ⟨rfl, rfl, rfl, rfl, rfl⟩; rfl⟩
  exact ⟨by simpa using congrArg opField h, by simpa using congrArg rdField h,
    by simpa using congrArg raField h, by simpa using congrArg rbField h,
    by simpa using congrArg immField h⟩

/-- Of the words with its OP, a row accepts exactly the encodings of well-formed commands. -/
def Row.IsExact (r : Row) : Prop :=
  ∀ (rd ra rb : RegIdx) (k : BitVec 11),
    r.accepts (commandWord r.op rd ra rb k) ↔
      WellFormed (r.make rd ra rb k) ∧
        commandWord r.op rd ra rb k = encode (r.make rd ra rb k)

/-- Row by row: the checks of the used fields are the command's well-formedness, and those of the unused
ones that the encoding has 0 there. -/
theorem opcodeMap_isExact : ∀ r ∈ opcodeMap, r.IsExact := by
  simp only [opcodeMap, montgomeryMultRows, modularReducerRows, modularInverterRows, fieldSqrtRows,
    edwardsPointRows, List.cons_append, List.nil_append, List.forall_mem_cons, List.not_mem_nil,
    IsEmpty.forall_iff, implies_true, and_true]
  and_intros <;> intro rd ra rb k
  all_goals
    simp only [Row.accepts_iff, rdField_commandWord, raField_commandWord, rbField_commandWord,
      immField_commandWord, Kind.accepts_unused, Kind.accepts_f, Kind.accepts_w, Kind.accepts_p,
      ImmKind.accepts_unused, ImmKind.accepts_const, ImmKind.accepts_count, WellFormed, wellFormed,
      encode, commandWord_inj, decide_eq_true_eq]
    tauto

/-- The row of a word's OP accepts it exactly when it is the encoding of a well-formed command. -/
theorem Row.accepts_iff_encode {r : Row} (h : findRow (opField w) = some r) :
    r.accepts w ↔ WellFormed (r.instr w) ∧ encode (r.instr w) = w := by
  obtain ⟨hmem, hop⟩ := findRow_some h
  have hexact := opcodeMap_isExact r hmem (rdField w) (raField w) (rbField w) (immField w)
  rwa [hop, commandWord_fields, eq_comm (a := w)] at hexact

/-- The encoding of a command has its row's OP, and that row makes the command of it again. -/
theorem row_of_encode : ∀ i : Instr, Laws.EncodedFields.Statement i
  | .nop => Laws.EncodedFields.nop
  | .fadd d a b => Laws.EncodedFields.fadd d a b
  | .fsub d a b => Laws.EncodedFields.fsub d a b
  | .fneg d a => Laws.EncodedFields.fneg d a
  | .fmul d a b => Laws.EncodedFields.fmul d a b
  | .fsqr d a => Laws.EncodedFields.fsqr d a
  | .fmov d a => Laws.EncodedFields.fmov d a
  | .fconst d c => Laws.EncodedFields.fconst d c
  | .feq a b => Laws.EncodedFields.feq a b
  | .fred d a => Laws.EncodedFields.fred d a
  | .redp d a => Laws.EncodedFields.redp d a
  | .redl d a => Laws.EncodedFields.redl d a
  | .finv d a => Laws.EncodedFields.finv d a
  | .fpow2 d a k => Laws.EncodedFields.fpow2 d a k
  | .pow22523 d a => Laws.EncodedFields.pow22523 d a
  | .sqrtratio d a b => Laws.EncodedFields.sqrtratio d a b
  | .decomp d a => Laws.EncodedFields.decomp d a
  | .pcomp d a => Laws.EncodedFields.pcomp d a
  | .pext d a => Laws.EncodedFields.pext d a
  | .paff d a => Laws.EncodedFields.paff d a
  | .padd d a b => Laws.EncodedFields.padd d a b
  | .psub d a b => Laws.EncodedFields.psub d a b
  | .pdbl d a => Laws.EncodedFields.pdbl d a
  | .pneg d a => Laws.EncodedFields.pneg d a
  | .peq a b => Laws.EncodedFields.peq a b

/-- Settles O1: the row of the encoding makes the command again, and accepts it. -/
theorem decodeOfEncodeIsTheCommand : Obligations.DecodeOfEncodeIsTheCommand := by
  intro i hwf
  obtain ⟨r, hrow, hinstr⟩ := row_of_encode i
  have haccepts : r.accepts (encode i) :=
    (Row.accepts_iff_encode hrow).2 (by simpa [hinstr] using hwf)
  rw [decode_eq_of_findRow hrow, if_pos haccepts, hinstr]

/-- Inversion of decoding: a word decodes to a command by the row of its OP, which accepts it. -/
theorem row_of_decode {i : Instr} (h : decode w = .ok i) :
    ∃ r, findRow (opField w) = some r ∧ r.accepts w ∧ r.instr w = i := by
  cases hrow : findRow (opField w) with
  | none => simp [decode_eq_of_findRow_none hrow] at h
  | some r =>
    rw [decode_eq_of_findRow hrow] at h
    split_ifs at h with haccepts
    exact ⟨r, rfl, haccepts, by simpa using h⟩

/-- Settles O2: the row that made the command accepts no other word for it. -/
theorem legalWordIsTheOneEncoding : Obligations.LegalWordIsTheOneEncoding := by
  intro w i h
  obtain ⟨r, hrow, haccepts, rfl⟩ := row_of_decode h
  exact (Row.accepts_iff_encode hrow).1 haccepts

/-! ### Illegal opcodes (R125, R127) -/

theorem decode_eq_illegalOpcode_iff :
    decode w = .error .illegalOpcode ↔ findRow (opField w) = none := by
  cases hrow : findRow (opField w) with
  | none => simp [decode_eq_of_findRow_none hrow]
  | some r => rw [decode_eq_of_findRow hrow]; split_ifs <;> simp

/-- The opcode map has no row for exactly the reserved values of OP. -/
theorem findRow_eq_none_iff : ∀ op : BitVec 6, findRow op = none ↔ ReservedOp op.toNat := by
  unfold ReservedOp
  decide

/-- Settles O3: a word is an illegal opcode when its OP has no row. -/
theorem reservedOpcodesAreIllegal : Obligations.ReservedOpcodesAreIllegal := by
  intro w
  rw [decode_eq_illegalOpcode_iff, findRow_eq_none_iff, opField_toNat]

/-! ### Illegal operands (R128 to R131) -/

/-- What a column of the opcode map has in the row of a word's OP, read off the map for the few values
OP can have. -/
theorem column_of_op {α : Type} {column : Row → α} {x : α} {ops : List Nat}
    (hops : ∀ op ∈ ops, (findRow (BitVec.ofNat 6 op)).map column = some x)
    (h : w.toNat % 2 ^ 6 ∈ ops) : ∃ r, findRow (opField w) = some r ∧ column r = x := by
  have hcolumn := hops _ h
  rw [← opField_toNat, BitVec.ofNat_toNat, BitVec.setWidth_eq] at hcolumn
  simpa using hcolumn

/-- A word its row does not accept is an illegal operand. -/
theorem decode_of_not_accepts {r : Row} (hrow : findRow (opField w) = some r)
    (h : ¬ r.accepts w) : decode w = .error .illegalOperand := by
  rw [decode_eq_of_findRow hrow, if_neg h]

theorem decode_of_rd_refused {k : Kind}
    (hk : ∃ r, findRow (opField w) = some r ∧ r.rd = k) (h : ¬ k.accepts (rdField w)) :
    decode w = .error .illegalOperand := by
  obtain ⟨r, hrow, rfl⟩ := hk
  exact decode_of_not_accepts hrow fun haccepts => h ((r.accepts_iff w).1 haccepts).1

theorem decode_of_ra_refused {k : Kind}
    (hk : ∃ r, findRow (opField w) = some r ∧ r.ra = k) (h : ¬ k.accepts (raField w)) :
    decode w = .error .illegalOperand := by
  obtain ⟨r, hrow, rfl⟩ := hk
  exact decode_of_not_accepts hrow fun haccepts => h ((r.accepts_iff w).1 haccepts).2.1

theorem decode_of_rb_refused {k : Kind}
    (hk : ∃ r, findRow (opField w) = some r ∧ r.rb = k) (h : ¬ k.accepts (rbField w)) :
    decode w = .error .illegalOperand := by
  obtain ⟨r, hrow, rfl⟩ := hk
  exact decode_of_not_accepts hrow fun haccepts => h ((r.accepts_iff w).1 haccepts).2.2.1

theorem decode_of_imm_refused {k : ImmKind}
    (hk : ∃ r, findRow (opField w) = some r ∧ r.imm = k) (h : ¬ k.accepts (immField w)) :
    decode w = .error .illegalOperand := by
  obtain ⟨r, hrow, rfl⟩ := hk
  exact decode_of_not_accepts hrow fun haccepts => h ((r.accepts_iff w).1 haccepts).2.2.2

/-- Settles O4: clause by clause, the column of the field has kind `p` or `w` for these OPs. -/
theorem pointAndPairFieldsAreChecked : Obligations.PointAndPairFieldsAreChecked := by
  intro w op rd ra rb
  rintro (⟨hop, h⟩ | ⟨hop, h⟩ | ⟨hop, h⟩ | ⟨hop, h⟩ | ⟨hop, h⟩)
  · exact decode_of_rd_refused (k := .p) (column_of_op (by decide) hop)
      (by rwa [Kind.accepts_p, PointIdx, rdField_val])
  · exact decode_of_ra_refused (k := .p) (column_of_op (by decide) hop)
      (by rwa [Kind.accepts_p, PointIdx, raField_val])
  · exact decode_of_rb_refused (k := .p) (column_of_op (by decide) hop)
      (by rwa [Kind.accepts_p, PointIdx, rbField_val])
  · exact decode_of_ra_refused (k := .w) (column_of_op (by decide) hop)
      (by rwa [Kind.accepts_w, PairIdx, raField_val, not_not])
  · exact decode_of_rd_refused (k := .w) (column_of_op (by decide) (List.mem_singleton.2 hop))
      (by rwa [Kind.accepts_w, PairIdx, rdField_val, not_not])

/-! ### Unused fields (R122, R128) -/

theorem decode_of_rd_unused (hk : ∃ r, findRow (opField w) = some r ∧ r.rd = .unused)
    (h : w.toNat / 2 ^ 6 % 2 ^ 5 ≠ 0) : decode w = .error .illegalOperand :=
  decode_of_rd_refused hk (by rwa [Kind.accepts_unused, Fin.ext_iff, rdField_val])

theorem decode_of_ra_unused (hk : ∃ r, findRow (opField w) = some r ∧ r.ra = .unused)
    (h : w.toNat / 2 ^ 11 % 2 ^ 5 ≠ 0) : decode w = .error .illegalOperand :=
  decode_of_ra_refused hk (by rwa [Kind.accepts_unused, Fin.ext_iff, raField_val])

theorem decode_of_rb_unused (hk : ∃ r, findRow (opField w) = some r ∧ r.rb = .unused)
    (h : w.toNat / 2 ^ 16 % 2 ^ 5 ≠ 0) : decode w = .error .illegalOperand :=
  decode_of_rb_refused hk (by rwa [Kind.accepts_unused, Fin.ext_iff, rbField_val])

theorem decode_of_imm_unused (hk : ∃ r, findRow (opField w) = some r ∧ r.imm = .unused)
    (h : w.toNat / 2 ^ 21 ≠ 0) : decode w = .error .illegalOperand :=
  decode_of_imm_refused hk (by rwa [ImmKind.accepts_unused, ← BitVec.toNat_inj, immField_toNat])

/-- Settles O5: format by format, the columns of the fields it does not use; FCONST's index; and FPOW2's
encoding with any count. -/
theorem unusedFieldsAndConstantIndexAreChecked :
    Obligations.UnusedFieldsAndConstantIndexAreChecked := by
  refine ⟨?refused, fun d a k => decodeOfEncodeIsTheCommand (.fpow2 d a k) rfl⟩
  intro w op rd ra rb imm
  rintro (⟨hop, h⟩ | ⟨hop, h⟩ | ⟨hop, h⟩ | ⟨hop, h⟩ | ⟨hop, h⟩ | ⟨hop, h⟩ | ⟨hop, h⟩)
  · have hops := List.mem_singleton.2 hop
    rcases h with h | h | h | h
    · exact decode_of_rd_unused (column_of_op (by decide) hops) h
    · exact decode_of_ra_unused (column_of_op (by decide) hops) h
    · exact decode_of_rb_unused (column_of_op (by decide) hops) h
    · exact decode_of_imm_unused (column_of_op (by decide) hops) h
  · exact decode_of_imm_unused (column_of_op (by decide) hop) h
  · rcases h with h | h
    · exact decode_of_rb_unused (column_of_op (by decide) hop) h
    · exact decode_of_imm_unused (column_of_op (by decide) hop) h
  · have hops := List.mem_singleton.2 hop
    rcases h with h | h
    · exact decode_of_ra_unused (column_of_op (by decide) hops) h
    · exact decode_of_rb_unused (column_of_op (by decide) hops) h
  · exact decode_of_rb_unused (column_of_op (by decide) (List.mem_singleton.2 hop)) h
  · rcases h with h | h
    · exact decode_of_rd_unused (column_of_op (by decide) hop) h
    · exact decode_of_imm_unused (column_of_op (by decide) hop) h
  · exact decode_of_imm_refused (k := .const) (column_of_op (by decide) (List.mem_singleton.2 hop))
      (by rwa [ImmKind.accepts_const, ConstIdx, immField_toNat, not_le])

end Sys2Proof
end

section
/-! PROOFS. The montgomery_mult family (40_montgomery_mult.md): the residues the arithmetic commands
leave, the copy, the constants and the comparison, each with its frame and its word. -/

namespace Sys2Proof.Machine

/-! ### The operations on the raw contents of registers (R150) -/

theorem intCast_modP (a : Int) : ((modP a : Nat) : Int) = a % fieldPrime := by
  have hp : (0 : Int) < fieldPrime := by exact_mod_cast fieldPrime_pos
  exact Int.toNat_of_nonneg (Int.emod_nonneg a hp.ne')

theorem addP_red (s : State) (a b : RegIdx) :
    addP (s.red a) (s.red b) = ((s.reg a).toNat + (s.reg b).toNat) % fieldPrime :=
  (addP_eq _ _).trans (Nat.add_mod _ _ _).symm

theorem mulP_red (s : State) (a b : RegIdx) :
    mulP (s.red a) (s.red b) = ((s.reg a).toNat * (s.reg b).toNat) % fieldPrime :=
  (mulP_eq _ _).trans (Nat.mul_mod _ _ _).symm

theorem intCast_subP_red (s : State) (a b : RegIdx) :
    (subP (s.red a) (s.red b) : Int) = ((s.reg a).toNat - (s.reg b).toNat : Int) % fieldPrime := by
  rw [subP, intCast_modP, State.red, State.red, Int.natCast_mod, Int.natCast_mod, ← Int.sub_emod]

theorem intCast_negP_red (s : State) (a : RegIdx) :
    (negP (s.red a) : Int) = (-(s.reg a).toNat : Int) % fieldPrime := by
  rw [negP, intCast_modP, State.red, Int.natCast_mod, Int.sub_emod_emod, Int.zero_sub]

theorem eqField_red_iff (s : State) (a b : RegIdx) :
    eqField (s.red a) (s.red b) = true ↔
      (s.reg a).toNat % fieldPrime = (s.reg b).toNat % fieldPrime := beq_iff_eq

/-! ### Commands that write one residue (R151) -/

/-- A command whose meaning is to write a canonical value to one register leaves it there and changes
nothing else. -/
theorem exec_of_writeNat {i : Instr} {s : State} {d : RegIdx} {v : Nat}
    (h : exec i s = finish (s.writeNat d v)) (hv : v < fieldPrime) :
    ∃ t, exec i s = .next t ∧ WritesOnly [d] s t ∧ (t.reg d).toNat = v :=
  ⟨_, h, writesOnly_writeNat s d v, reg_writeNat_self s d hv⟩

/-- Settles O35: the value written is `addP`, `subP` or `negP` of the residues. -/
theorem addSubNegModP : Obligations.AddSubNegModP := by
  intro d a b s
  refine ⟨?add, ?sub, ?neg⟩
  case add =>
    obtain ⟨t, ht, hframe, hval⟩ := exec_of_writeNat (i := .fadd d a b) rfl (addP_lt _ _)
    exact ⟨t, ht, hframe, hval.trans (addP_red s a b), decodeOfEncodeIsTheCommand (.fadd d a b) rfl⟩
  case sub =>
    obtain ⟨t, ht, hframe, hval⟩ := exec_of_writeNat (i := .fsub d a b) rfl (subP_lt _ _)
    exact ⟨t, ht, hframe, by rw [hval, intCast_subP_red],
      decodeOfEncodeIsTheCommand (.fsub d a b) rfl⟩
  case neg =>
    obtain ⟨t, ht, hframe, hval⟩ := exec_of_writeNat (i := .fneg d a) rfl (negP_lt _)
    exact ⟨t, ht, hframe, by rw [hval, intCast_negP_red], decodeOfEncodeIsTheCommand (.fneg d a) rfl⟩

/-- Settles O36: the value written is `mulP` of the residues, for FSQR of one with itself. -/
theorem mulSqrModP : Obligations.MulSqrModP := by
  intro d a b s
  refine ⟨?mul, ?sqr⟩
  case mul =>
    obtain ⟨t, ht, hframe, hval⟩ := exec_of_writeNat (i := .fmul d a b) rfl (mulP_lt _ _)
    exact ⟨t, ht, hframe, hval.trans (mulP_red s a b), decodeOfEncodeIsTheCommand (.fmul d a b) rfl⟩
  case sqr =>
    obtain ⟨t, ht, hframe, hval⟩ := exec_of_writeNat (i := .fsqr d a) rfl (sqrP_lt _)
    exact ⟨t, ht, hframe, hval.trans (mulP_red s a a), decodeOfEncodeIsTheCommand (.fsqr d a) rfl⟩

/-! ### Constants (R42, R159) -/

theorem exec_fconst_of_some {c : BitVec 11} {v : FieldWord} (h : constTable c.toNat = some v)
    (d : RegIdx) (s : State) : exec (.fconst d c) s = .next (s.writeReg d v).complete := by
  rw [exec, execFconst, h]; rfl

theorem exec_fconst_of_none {c : BitVec 11} (h : constTable c.toNat = none) (d : RegIdx)
    (s : State) : exec (.fconst d c) s = .next (s.fail .illegalOperand) := by
  rw [exec, execFconst, h]; rfl

/-- R131: the row of FCONST refuses an index above 9. -/
theorem decode_fconst_of_not_constIdx (d : RegIdx) {c : BitVec 11} (h : ¬ ConstIdx c) :
    decode (commandWord 0x07 d 0 0 c) = .error .illegalOperand := by
  refine decode_of_imm_refused (k := .const) ⟨_, by rw [opField_commandWord]; rfl, rfl⟩ ?_
  rwa [immField_commandWord, ImmKind.accepts_const]

/-- R42: the constants as numbers; D, SQRTM1, MINUS_ONE and L by their names. -/
theorem map_toNat_constTable (c : Nat) :
    (constTable c).map BitVec.toNat =
      [ 0, 1, curveD, sqrtM1,
        0x216936d3cd6e53fec0a4e231fdd6dc5c692cc7609525a7b2c9562d608f25d51a,
        0x6666666666666666666666666666666666666666666666666666666666666658,
        121665, fieldPrime - 1, scalarOrder, 8 ][c]? := by
  rw [constTable, ← List.getElem?_map]
  exact congrArg (·[c]?) (by decide +kernel)

/-- Settles O38: the table has a constant for an index up to 9, and the command's word decodes. -/
theorem fconstLoadsTheTable : Obligations.FconstLoadsTheTable := by
  intro d c s
  refine ⟨fun hc => ?constant, fun hc => ⟨?fails, ?illegal⟩⟩
  case constant =>
    obtain ⟨v, hv⟩ := Option.ne_none_iff_exists'.1 (mt (constTable_eq_none c.toNat).1 hc.not_gt)
    refine ⟨_, exec_fconst_of_some hv d s, writesOnly_writeReg s d v, ?value,
      decodeOfEncodeIsTheCommand (.fconst d c) (decide_eq_true hc)⟩
    case value =>
      rw [State.reg_complete, State.reg_writeReg_self, ← Option.map_some, ← hv]
      exact map_toNat_constTable c.toNat
  case fails =>
    exact ⟨_, exec_fconst_of_none ((constTable_eq_none _).2 hc) d s,
      failsWith_fail s .illegalOperand⟩
  case illegal => exact decode_fconst_of_not_constIdx d hc.not_ge

/-! ### Comparison, NOP and copy -/

/-- Settles O39: EQ is `eqField` of the residues. -/
theorem feqComparesResidues : Obligations.FeqComparesResidues := fun a b s =>
  ⟨_, rfl, writesEqOnly_writeEq s (eqField (s.red a) (s.red b)), eqField_red_iff s a b,
    decodeOfEncodeIsTheCommand (.feq a b) rfl⟩

/-- Settles O34: the state is the completed one. -/
theorem nopOnlyCompletes : Obligations.NopOnlyCompletes := fun s =>
  ⟨_, rfl, writesOnly_nil s, decodeOfEncodeIsTheCommand .nop rfl⟩

/-- Settles O37: the register is written with the source as read, raw. -/
theorem fmovCopiesRaw : Obligations.FmovCopiesRaw := fun d a s =>
  ⟨_, rfl, writesOnly_writeReg s d (s.reg a), State.reg_writeReg_self s d (s.reg a),
    decodeOfEncodeIsTheCommand (.fmov d a) rfl⟩

end Sys2Proof.Machine
end

section
/-! PROOFS. The modular_reducer family (41_modular_reducer.md): the residues the reductions of one
register and of a pair leave, with the frame and the word of each. -/

namespace Sys2Proof.Machine

/-! ### Pairs of registers (R123, R130) -/

theorem pairIdx_of_ne {a : RegIdx} (h : a ≠ 31) : PairIdx a := fun hval => h (Fin.ext hval)

theorem isPair_of_ne {a : RegIdx} (h : a ≠ 31) : isPair a = true := by
  rw [isPair_eq]
  exact decide_eq_true (pairIdx_of_ne h)

theorem exec_redp_of_ne {a : RegIdx} (h : a ≠ 31) (d : RegIdx) (s : State) :
    exec (.redp d a) s = finish (s.writeNat d (s.wide a % fieldPrime)) := by
  rw [exec, execRedp, isPair_of_ne h, guardOperands_true]

theorem exec_redl_of_ne {a : RegIdx} (h : a ≠ 31) (d : RegIdx) (s : State) :
    exec (.redl d a) s = finish (s.writeNat d (s.wide a % scalarOrder)) := by
  rw [exec, execRedl, isPair_of_ne h, guardOperands_true]

/-! ### Reductions (R203, R204, R206) -/

/-- Settles O40: the value written is the remainder by `fieldPrime` or `scalarOrder`, and either is
canonical; a pair index passes the operand check of REDP and REDL and of their decoding. -/
theorem reductionsOfRawValues : Obligations.ReductionsOfRawValues := by
  intro d a s
  refine ⟨?fred, fun hpair => ?redp, fun hpair => ?redl⟩
  case fred =>
    obtain ⟨t, ht, hframe, hval⟩ := exec_of_writeNat (i := .fred d a) rfl (red_lt s a)
    exact ⟨t, ht, hframe, hval, decodeOfEncodeIsTheCommand (.fred d a) rfl⟩
  case redp =>
    obtain ⟨t, ht, hframe, hval⟩ :=
      exec_of_writeNat (exec_redp_of_ne hpair d s) (Nat.mod_lt _ fieldPrime_pos)
    exact ⟨t, ht, hframe, hval,
      decodeOfEncodeIsTheCommand (.redp d a) (decide_eq_true (pairIdx_of_ne hpair))⟩
  case redl =>
    obtain ⟨t, ht, hframe, hval⟩ :=
      exec_of_writeNat (exec_redl_of_ne hpair d s) (mod_scalarOrder_lt _)
    exact ⟨t, ht, hframe, hval,
      decodeOfEncodeIsTheCommand (.redl d a) (decide_eq_true (pairIdx_of_ne hpair))⟩

end Sys2Proof.Machine
end

section
/-! PROOFS. The modular_inverter family (42_modular_inverter.md): the powers FINV, FPOW2 and POW22523
leave, with the frame and the word of each, and the chain of FINVCHAIN as an addition of exponents. -/

namespace Sys2Proof.Machine

/-! ### Powers of the raw contents of registers (R150) -/

theorem powP_red (s : State) (a : RegIdx) {e : Nat} (h : e < 2 ^ 256) :
    powP (s.red a) e = (s.reg a).toNat ^ e % fieldPrime :=
  (powP_eq _ e h).trans (Nat.pow_mod _ _ _).symm

theorem pow2P_red (s : State) (a : RegIdx) (k : Nat) :
    pow2P k (s.red a) = (s.reg a).toNat ^ 2 ^ k % fieldPrime :=
  (pow2P_eq k _ (red_lt s a)).trans (Nat.pow_mod _ _ _).symm

/-- R224: both members of the pair; the second is the cube (90_conflicts.md C1). -/
theorem chainP_red (s : State) (a : RegIdx) :
    (chainP (s.red a)).1 = (s.reg a).toNat ^ ((fieldPrime - 5) / 8) % fieldPrime ∧
      (chainP (s.red a)).2 = (s.reg a).toNat ^ 3 % fieldPrime := by
  simp only [chainP]
  exact ⟨powP_red s a chain_exp_lt, powP_red s a (by norm_num)⟩

/-! ### The commands (R221, R223, R224) -/

/-- Settles O41: the value written is `invP` of the residue. -/
theorem finvIsThePower : Obligations.FinvIsThePower := by
  intro d a s
  obtain ⟨t, ht, hframe, hval⟩ := exec_of_writeNat (i := .finv d a) rfl (invP_lt (s.red a))
  exact ⟨t, ht, hframe, hval.trans (powP_red s a invP_exp_lt),
    decodeOfEncodeIsTheCommand (.finv d a) rfl⟩

/-- Settles O43: the value written is `pow2P` of the residue. -/
theorem fpow2IsThePower : Obligations.Fpow2IsThePower := by
  intro d a k s
  obtain ⟨t, ht, hframe, hval⟩ :=
    exec_of_writeNat (i := .fpow2 d a k) rfl (pow2P_lt k.toNat _ (red_lt s a))
  exact ⟨t, ht, hframe, hval.trans (pow2P_red s a k.toNat),
    decodeOfEncodeIsTheCommand (.fpow2 d a k) rfl⟩

theorem exec_pow22523_of_ne {d : RegIdx} (h : d ≠ 31) (a : RegIdx) (s : State) :
    exec (.pow22523 d a) s = finish (s.writePair d (chainP (s.red a))) := by
  rw [exec, execPow22523, isPair_of_ne h, guardOperands_true]

/-- A command whose meaning is to write two canonical values to a pair leaves them there and changes
nothing else. -/
theorem exec_of_writePair {i : Instr} {s : State} {d : RegIdx} {v : Nat × Nat}
    (h : exec i s = finish (s.writePair d v)) (h1 : v.1 < fieldPrime) (h2 : v.2 < fieldPrime) :
    ∃ t, exec i s = .next t ∧ WritesOnly [d, d + 1] s t ∧ (t.reg d).toNat = v.1 ∧
      (t.reg (d + 1)).toNat = v.2 := by
  obtain ⟨hreg1, hreg2⟩ := writePair_regs s d v
  refine ⟨_, h, writesOnly_writePair s d v, ?fst, ?snd⟩
  case fst => rw [State.reg_complete, hreg1, toNat_ofNat_fieldPrime h1]
  case snd => rw [State.reg_complete, hreg2, toNat_ofNat_fieldPrime h2]

/-- Settles O44: the pair written is `chainP` of the residue; a pair index passes the operand check. -/
theorem pow22523IsThePair : Obligations.Pow22523IsThePair := by
  intro d a s hpair
  obtain ⟨hlt1, hlt2⟩ := chainP_lt (s.red a)
  obtain ⟨t, ht, hframe, hval1, hval2⟩ :=
    exec_of_writePair (exec_pow22523_of_ne hpair a s) hlt1 hlt2
  obtain ⟨hpow, hcube⟩ := chainP_red s a
  exact ⟨t, ht, hframe, hval1.trans hpow, hval2.trans hcube,
    decodeOfEncodeIsTheCommand (.pow22523 d a) (decide_eq_true (pairIdx_of_ne hpair))⟩

/-! ### The power p − 2 as the inverse (R222) -/

theorem mod_fieldPrime_eq_iff (s : State) (r : RegIdx) {n : Nat} (h : n < fieldPrime) :
    (s.reg r).toNat % fieldPrime = n ↔ s.val r = n := by
  rw [State.val, ZMod.natCast_eq_natCast_iff', Nat.mod_eq_of_lt h]

theorem cast_fieldPrime_sub_one : ((fieldPrime - 1 : Nat) : ZMod fieldPrime) = -1 := by
  rw [Nat.cast_sub one_lt_fieldPrime.le, ZMod.natCast_self, Nat.cast_one, zero_sub]

/-- The power p − 2 inverts by Fermat's little theorem. -/
theorem mul_pow_fieldPrime_sub_two {x : ZMod fieldPrime} (h : x ≠ 0) :
    x * x ^ (fieldPrime - 2) = 1 := by
  have : Fact fieldPrime.Prime := ⟨fieldPrime_prime⟩
  have hexp : fieldPrime - 2 + 1 = fieldPrime - 1 := by have h1 := one_lt_fieldPrime; omega
  rw [← pow_succ', hexp, ZMod.pow_card_sub_one_eq_one h]

theorem odd_fieldPrime_sub_two : Odd (fieldPrime - 2) := by decide +kernel

/-- What FINV leaves in the destination: a canonical value, in ZMod p the power p − 2. -/
theorem val_finv (d a : RegIdx) (s : State) : ∃ t, exec (.finv d a) s = .next t ∧
    WritesOnly [d] s t ∧ Canonical (t.reg d) ∧ t.val d = s.val a ^ (fieldPrime - 2) := by
  obtain ⟨t, ht, hframe, hval, -⟩ := finvIsThePower d a s
  refine ⟨t, ht, hframe, ?canonical, ?val⟩
  case canonical => rw [Canonical, hval]; exact Nat.mod_lt _ fieldPrime_pos
  case val => rw [State.val, hval, ZMod.natCast_mod, Nat.cast_pow, State.val]

/-- Settles O42: each clause is the power p − 2 in ZMod p, of a nonzero element, of 0, of 1 and of −1
(p − 2 is odd). -/
theorem finvIsTheInverse : Obligations.FinvIsTheInverse := by
  intro d a s
  obtain ⟨t, ht, hframe, hcanonical, hval⟩ := val_finv d a s
  have hlast : fieldPrime - 1 < fieldPrime := Nat.sub_lt fieldPrime_pos one_pos
  refine ⟨t, ht, hframe, fun hx => ?inverse, fun hx => ?zero, fun hx => ?one, fun hx => ?minusOne⟩
  case inverse =>
    have hne : s.val a ≠ 0 := by
      rwa [Ne, mod_fieldPrime_eq_iff s a fieldPrime_pos, Nat.cast_zero] at hx
    have hmul : s.val a * t.val d = 1 := by rw [hval, mul_pow_fieldPrime_sub_two hne]
    rw [State.val, State.val, ← Nat.cast_mul, ← Nat.cast_one, ZMod.natCast_eq_natCast_iff'] at hmul
    rwa [Nat.mod_eq_of_lt one_lt_fieldPrime] at hmul
  case zero =>
    rw [mod_fieldPrime_eq_iff s a fieldPrime_pos, Nat.cast_zero] at hx
    rw [hx, zero_pow odd_fieldPrime_sub_two.pos.ne', ← Nat.cast_zero] at hval
    exact BitVec.eq_of_toNat_eq (eq_of_cast_eq hcanonical fieldPrime_pos hval)
  case one =>
    rw [mod_fieldPrime_eq_iff s a one_lt_fieldPrime, Nat.cast_one] at hx
    rw [hx, one_pow, ← Nat.cast_one] at hval
    exact eq_of_cast_eq hcanonical one_lt_fieldPrime hval
  case minusOne =>
    rw [mod_fieldPrime_eq_iff s a hlast, cast_fieldPrime_sub_one] at hx
    rw [hx, odd_fieldPrime_sub_two.neg_one_pow, ← cast_fieldPrime_sub_one] at hval
    exact eq_of_cast_eq hcanonical hlast hval

/-! ### FINVCHAIN (R135, R225) -/

theorem execAll_cons_of_next {i : Instr} {s t : State} (h : exec i s = .next t) (is : List Instr) :
    execAll (i :: is) s = execAll is t := by
  rw [execAll, h]

theorem finvchain_admits_iff (d a t : RegIdx) :
    (Pseudo.finvchain d a t).admits = true ↔ t ≠ 31 ∧ d ≠ t + 1 := by
  simp [Pseudo.admits, isPair_eq, Fin.ext_iff]

/-- The exponents of the chain add up: 2³·(p − 5)/8 + 3 = p − 2. -/
theorem chain_exponents : (fieldPrime - 5) / 8 * 2 ^ 3 + 3 = fieldPrime - 2 := by decide +kernel

/-- R225: the product of the chain's reduced powers is the power p − 2. -/
theorem chain_product (x : Nat) :
    (x ^ ((fieldPrime - 5) / 8) % fieldPrime) ^ 2 ^ 3 % fieldPrime * (x ^ 3 % fieldPrime) %
        fieldPrime =
      x ^ (fieldPrime - 2) % fieldPrime := by
  rw [← Nat.pow_mod, ← Nat.mul_mod, ← pow_mul, ← pow_add, chain_exponents]

/-- Settles O45: each command's power by its own theorem; FPOW2 leaves the cube in `t + 1` as it was,
since `d ≠ t + 1`. -/
theorem fermatChainIsFinv : Obligations.FermatChainIsFinv := by
  intro d a t s hadmits
  obtain ⟨hpair, hne⟩ := (finvchain_admits_iff d a t).1 hadmits
  obtain ⟨s₁, hrun₁, -, hpow, hcube, -⟩ := pow22523IsThePair t a s hpair
  obtain ⟨s₂, hrun₂, ⟨-, -, -, hframe⟩, hpow8, -⟩ := fpow2IsThePower d t 3 s₁
  obtain ⟨s₃, hrun₃, -, hprod, -⟩ := (mulSqrModP d d (t + 1) s₂).1
  obtain ⟨v, hrun, -, hinv, -⟩ := finvIsThePower d a s
  refine ⟨s₃, v, ?run, hrun, BitVec.eq_of_toNat_eq ?value⟩
  case run =>
    rw [expand, execAll_cons_of_next hrun₁, execAll_cons_of_next hrun₂, execAll_cons_of_next hrun₃,
      execAll]
  case value =>
    have hkept : s₂.reg (t + 1) = s₁.reg (t + 1) := hframe (t + 1) (by simpa using hne.symm)
    rw [hprod, hpow8, hkept, hpow, hcube, hinv]
    exact chain_product (s.reg a).toNat

end Sys2Proof.Machine
end

section
/-! PROOFS. The field_sqrt_mod_p family (43_field_sqrt.md): the formula's root is a root and is found
wherever there is one, the steps of DECOMP and of PCOMP, and the round trips between them. -/

namespace Sys2Proof.Machine

/-! ### The formula of R241 on exact powers -/

theorem sqrtCandidate_eq (u v : Nat) :
    sqrtCandidate u v = u * v ^ 3 * (u * v ^ 7) ^ ((fieldPrime - 5) / 8) % fieldPrime := by
  refine eq_of_cast_eq (mulP_lt _ _) (Nat.mod_lt _ fieldPrime_pos) ?_
  rw [cast_sqrtCandidate, ZMod.natCast_mod]
  push_cast
  rfl

/-- The model's root is the formula's: its tests are the formula's, read in ZMod p. -/
theorem sqrtRatio_eq_sqrtFormula {u : Nat} (hu : u < fieldPrime) (v : Nat) :
    sqrtRatio u v = sqrtFormula u v := by
  have hroot : v * sqrtCandidate u v * sqrtCandidate u v % fieldPrime = u % fieldPrime ↔
      v * (sqrtCandidate u v : ZMod fieldPrime) ^ 2 = u := by
    rw [← ZMod.natCast_eq_natCast_iff', Nat.cast_mul, Nat.cast_mul, mul_assoc, pow_two]
  have hneg : (v * sqrtCandidate u v * sqrtCandidate u v + u) % fieldPrime = 0 ↔
      v * (sqrtCandidate u v : ZMod fieldPrime) ^ 2 = -u := by
    rw [← Nat.dvd_iff_mod_eq_zero, ← ZMod.natCast_eq_zero_iff, eq_neg_iff_add_eq_zero, Nat.cast_add,
      Nat.cast_mul, Nat.cast_mul, mul_assoc, pow_two]
  unfold sqrtFormula
  simp only [← sqrtCandidate_eq, hroot, hneg]
  obtain ⟨h, heq⟩ | ⟨h, h', heq⟩ | ⟨h, h', heq⟩ := sqrtRatio_cases (v := v) hu
  · rw [heq, if_pos h]
  · rw [heq, if_neg h, if_pos h', mulP_eq]
  · rw [heq, if_neg h, if_neg h']

/-! ### The roots SQRTRATIO finds (R242) -/

/-- R242: what is found is a root; the factor √−1 turns a root of −u/v into one of u/v. -/
theorem sqrtRatio_isRoot {u v r : Nat} (hu : u < fieldPrime) (h : sqrtRatio u v = some r) :
    (v : ZMod fieldPrime) * r ^ 2 = u := by
  obtain ⟨hsq, heq⟩ | ⟨-, hsq, heq⟩ | ⟨-, -, heq⟩ := sqrtRatio_cases (v := v) hu
  · obtain rfl : sqrtCandidate u v = r := by simpa [heq] using h
    exact hsq
  · obtain rfl : mulP (sqrtCandidate u v) sqrtM1 = r := by simpa [heq] using h
    rw [cast_mulP, mul_pow, sqrtM1_sq, mul_neg_one, mul_neg, hsq, neg_neg]
  · simp [heq] at h

theorem candidate_exponents :
    (fieldPrime - 5) / 8 * 2 + 1 = (fieldPrime - 1) / 4 ∧
      2 * ((fieldPrime - 1) / 4) = fieldPrime / 2 := by
  decide +kernel

/-- The square of the candidate is off u/v by a power (p − 1)/4. -/
theorem mul_sqrtCandidate_sq (u v : Nat) :
    (v : ZMod fieldPrime) * sqrtCandidate u v ^ 2 = u * (u * v ^ 7) ^ ((fieldPrime - 1) / 4) := by
  rw [cast_sqrtCandidate, ← candidate_exponents.1]
  ring

/-- Where u/v is the square r², that power is (v⁴·r)^((p − 1)/2), which is 1 or −1. -/
theorem mul_sqrtCandidate_sq_of_root {u v : Nat} {r : ZMod fieldPrime} (h : v * r ^ 2 = u) :
    (v : ZMod fieldPrime) * sqrtCandidate u v ^ 2 = u ∨
      (v : ZMod fieldPrime) * sqrtCandidate u v ^ 2 = -u := by
  have : Fact fieldPrime.Prime := ⟨fieldPrime_prime⟩
  rw [mul_sqrtCandidate_sq]
  by_cases hu : (u : ZMod fieldPrime) = 0
  · exact .inl (by rw [hu, zero_mul])
  · have hne : v ^ 4 * r ≠ 0 := by
      intro h0
      apply hu
      rcases mul_eq_zero.1 h0 with hv | hr
      · rw [← h, pow_eq_zero_iff (by norm_num) |>.1 hv, zero_mul]
      · rw [← h, hr, zero_pow two_ne_zero, mul_zero]
    have hpow : (u * v ^ 7 : ZMod fieldPrime) ^ ((fieldPrime - 1) / 4) =
        (v ^ 4 * r) ^ (fieldPrime / 2) := by
      rw [← candidate_exponents.2, pow_mul, ← h]
      ring
    rw [hpow]
    obtain h1 | h1 := ZMod.pow_div_two_eq_neg_one_or_one fieldPrime hne
    · exact .inl (by rw [h1, mul_one])
    · exact .inr (by rw [h1, mul_neg_one])

theorem sqrtRatio_isSome_of_root {u v : Nat} (hu : u < fieldPrime) {r : ZMod fieldPrime}
    (h : v * r ^ 2 = u) : ∃ x, sqrtRatio u v = some x := by
  obtain ⟨-, heq⟩ | ⟨-, -, heq⟩ | ⟨hne, hne', -⟩ := sqrtRatio_cases (v := v) hu
  · exact ⟨_, heq⟩
  · exact ⟨_, heq⟩
  · exact absurd (mul_sqrtCandidate_sq_of_root h) (not_or_intro hne hne')

/-! ### SQRTRATIO -/

/-- R316: a command that rejects its operands ends with InvalidPoint. -/
theorem exec_of_invalidPoint {i : Instr} {s : State} (h : exec i s = failWith .invalidPoint s) :
    ∃ t, exec i s = .next t ∧ FailsWith 4 s.currentWord s t :=
  ⟨_, h, failsWith_fail s .invalidPoint⟩

theorem exec_sqrtratio_of_some {s : State} {a b : RegIdx} {r : Nat}
    (h : sqrtRatio (s.red a) (s.red b) = some r) (d : RegIdx) :
    exec (.sqrtratio d a b) s = finish (s.writeNat d r) := by
  rw [exec, execSqrtratio, h]; rfl

theorem exec_sqrtratio_of_none {s : State} {a b : RegIdx} (h : sqrtRatio (s.red a) (s.red b) = none)
    (d : RegIdx) : exec (.sqrtratio d a b) s = failWith .invalidPoint s := by
  rw [exec, execSqrtratio, h]; rfl

/-- Settles O46: the root the command takes of the residues is the formula's. -/
theorem sqrtratioFollowsTheFormula : Obligations.SqrtratioFollowsTheFormula := by
  intro d a b s
  have hformula := sqrtRatio_eq_sqrtFormula (red_lt s a) (s.red b)
  refine ⟨decodeOfEncodeIsTheCommand (.sqrtratio d a b) rfl, fun r hr => ?root, fun hr => ?noRoot⟩
  case root =>
    have hsome := hformula.trans hr
    exact exec_of_writeNat (exec_sqrtratio_of_some hsome d) (sqrtRatio_lt hsome)
  case noRoot => exact exec_of_invalidPoint (exec_sqrtratio_of_none (hformula.trans hr) d)

/-- Settles O47: what is found is a root, and one is found where there is one. -/
theorem sqrtratioFindsEveryRoot : Obligations.SqrtratioFindsEveryRoot := by
  intro d a b s
  refine ⟨fun ⟨r, hr⟩ => ?root, fun hno => ?noRoot⟩
  case root =>
    rw [← cast_red s a, ← cast_red s b] at hr
    obtain ⟨x, hx⟩ := sqrtRatio_isSome_of_root (red_lt s a) hr
    obtain ⟨t, ht, hframe, hval⟩ := exec_of_writeNat (exec_sqrtratio_of_some hx d) (sqrtRatio_lt hx)
    have hroot := sqrtRatio_isRoot (red_lt s a) hx
    rw [cast_red, cast_red, ← hval] at hroot
    exact ⟨t, ht, hframe, hroot⟩
  case noRoot =>
    cases hx : sqrtRatio (s.red a) (s.red b) with
    | none => exact exec_of_invalidPoint (exec_sqrtratio_of_none hx d)
    | some x => exact absurd ⟨x, by simpa using sqrtRatio_isRoot (red_lt s a) hx⟩ hno

/-! ### The steps of DECOMP (R243) -/

theorem signBit_toNat (wv : FieldWord) : (signBit wv).toNat = wv.toNat / 2 ^ 255 := by
  have hlt := wv.isLt
  rw [signBit, BitVec.getLsbD, Nat.toNat_testBit]
  omega

theorem negP_eq {x : Nat} (hx : x < fieldPrime) : negP x = (fieldPrime - x) % fieldPrime := by
  refine eq_of_cast_eq (negP_lt x) (Nat.mod_lt _ fieldPrime_pos) ?_
  rw [cast_negP, ZMod.natCast_mod, Nat.cast_sub hx.le, ZMod.natCast_self, zero_sub]

theorem applySign_eq (b : Bool) {x : Nat} (hx : x < fieldPrime) :
    applySign b x = if x % 2 ≠ b.toNat then (fieldPrime - x) % fieldPrime else x := by
  have htest : ((x % 2 == 1) != b) = true ↔ x % 2 ≠ b.toNat := by
    rcases Nat.mod_two_eq_zero_or_one x with h | h <;> cases b <;> simp [h]
  simp only [applySign, htest, negP_eq hx]

theorem cast_applySign_sq (b : Bool) (x : Nat) :
    (applySign b x : ZMod fieldPrime) ^ 2 = (x : ZMod fieldPrime) ^ 2 := by
  unfold applySign
  split
  · rw [cast_negP, neg_sq]
  · rfl

theorem fieldPrime_odd : fieldPrime % 2 = 1 := by decide +kernel

/-- R244 (b): the sign bit is the parity of x, but for the zero that cannot take it. -/
theorem applySign_mod_two {b : Bool} {x : Nat} (hx : x < fieldPrime) (h : ¬ (x = 0 ∧ b = true)) :
    applySign b x % 2 = b.toNat := by
  have hodd := fieldPrime_odd
  rw [applySign_eq b hx]
  split_ifs with hsign
  · have hpos : x ≠ 0 := by
      rintro rfl
      cases b <;> simp at h hsign
    have hneg : fieldPrime - x < fieldPrime := by omega
    have hb := b.toNat_le
    rw [Nat.mod_eq_of_lt hneg]
    omega
  · exact not_not.1 hsign

/-- R243, steps 2 and 3: the root for an ordinate y, on exact integers. -/
def rootOfOrdinate (y : Nat) : Option Nat :=
  sqrtFormula ((y * y + fieldPrime - 1) % fieldPrime) ((curveD * y * y + 1) % fieldPrime)

theorem decompress_numerator (y : Nat) : subP (sqrP y) 1 = (y * y + fieldPrime - 1) % fieldPrime := by
  refine eq_of_cast_eq (subP_lt _ _) (Nat.mod_lt _ fieldPrime_pos) ?_
  rw [cast_subP, cast_sqrP, ZMod.natCast_mod, Nat.cast_sub (by have := fieldPrime_pos; omega)]
  simp [pow_two]

theorem decompress_denominator (y : Nat) :
    addP (mulP curveD (sqrP y)) 1 = (curveD * y * y + 1) % fieldPrime := by
  rw [addP_eq, mulP_eq, sqrP_eq, Nat.mul_mod_mod, Nat.mod_add_mod, mul_assoc]

theorem decompress_of_ge {wv : FieldWord} (h : fieldPrime ≤ encodedY wv) : decompress wv = none :=
  if_pos h

theorem decompress_of_lt {wv : FieldWord} (h : encodedY wv < fieldPrime) :
    decompress wv = (rootOfOrdinate (encodedY wv)).map
      fun x => extend (applySign (signBit wv) x) (encodedY wv) := by
  have hroot := sqrtRatio_eq_sqrtFormula (subP_lt (sqrP (encodedY wv)) 1)
    (addP (mulP curveD (sqrP (encodedY wv))) 1)
  rw [decompress_numerator, decompress_denominator] at hroot
  simp only [decompress, decompress_numerator, decompress_denominator, hroot]
  exact if_neg h.not_ge

theorem rootOfOrdinate_lt {y x : Nat} (h : rootOfOrdinate y = some x) : x < fieldPrime := by
  rw [rootOfOrdinate, ← sqrtRatio_eq_sqrtFormula (Nat.mod_lt _ fieldPrime_pos)] at h
  exact sqrtRatio_lt h

theorem exec_decomp_of_some {s : State} {d a : RegIdx} {q : Point} (hd : d.val % 4 = 0)
    (h : decompress (s.reg a) = some q) : exec (.decomp d a) s = finish (s.writePoint d q) := by
  rw [exec, execDecomp, isPoint_eq, decide_eq_true hd, h]; rfl

theorem exec_decomp_of_none {s : State} {d a : RegIdx} (hd : d.val % 4 = 0)
    (h : decompress (s.reg a) = none) : exec (.decomp d a) s = failWith .invalidPoint s := by
  rw [exec, execDecomp, isPoint_eq, decide_eq_true hd, h]; rfl

/-- A command whose meaning is to write a canonical point leaves its coordinates in the four registers
and changes nothing else. -/
theorem exec_of_writePoint {i : Instr} {s : State} {d : RegIdx} {q : Point}
    (h : exec i s = finish (s.writePoint d q)) (hq : q.Reduced) :
    ∃ t, exec i s = .next t ∧ WritesOnly [d, d + 1, d + 2, d + 3] s t ∧ (t.reg d).toNat = q.x ∧
      (t.reg (d + 1)).toNat = q.y ∧ (t.reg (d + 2)).toNat = q.z ∧ (t.reg (d + 3)).toNat = q.t := by
  obtain ⟨hx, hy, hz, ht⟩ := hq
  obtain ⟨hreg0, hreg1, hreg2, hreg3⟩ := writePoint_regs s d q
  refine ⟨_, h, writesOnly_writePoint s d q, ?_⟩
  simp only [State.reg_complete, hreg0, hreg1, hreg2, hreg3, toNat_ofNat_fieldPrime hx,
    toNat_ofNat_fieldPrime hy, toNat_ofNat_fieldPrime hz, toNat_ofNat_fieldPrime ht, and_self]

/-- Settles O48: the point written is `decompress` of the raw register, by its steps. -/
theorem decompFollowsTheSteps : Obligations.DecompFollowsTheSteps := by
  intro d a s hd b y root
  refine ⟨decodeOfEncodeIsTheCommand (.decomp d a) (decide_eq_true hd), fun hbad => ?rejected,
    fun hy x hx => ?point⟩
  case rejected =>
    refine exec_of_invalidPoint (exec_decomp_of_none hd ?_)
    rcases le_or_gt fieldPrime y with hy | hy
    · exact decompress_of_ge hy
    · have hnone : rootOfOrdinate y = none := hbad.resolve_left hy.not_ge
      exact (decompress_of_lt hy).trans (congrArg _ hnone)
  case point =>
    have hroot : rootOfOrdinate y = some x := hx
    have hlt := rootOfOrdinate_lt hroot
    have hdec : decompress (s.reg a) = some (extend (applySign (signBit (s.reg a)) x) y) :=
      (decompress_of_lt hy).trans (congrArg _ hroot)
    obtain ⟨t, ht, hframe, hX, hY, hZ, hT⟩ :=
      exec_of_writePoint (exec_decomp_of_some hd hdec) (decompress_reduced hdec)
    refine ⟨t, ht, hframe, ?sign, hY, BitVec.eq_of_toNat_eq hZ, ?product⟩
    case sign =>
      rw [hX, extend, applySign_eq _ hlt, signBit_toNat]
    case product =>
      rw [hT, hX]
      exact mulP_eq _ _

/-! ### PCOMP (R245) -/

/-- R222, R245: the test on Z·Z⁻¹ is whether Z is nonzero. -/
theorem mulP_invP_eq_one_iff (z : Nat) : mulP z (invP z) = 1 ↔ (z : ZMod fieldPrime) ≠ 0 := by
  have : Fact fieldPrime.Prime := ⟨fieldPrime_prime⟩
  have hcast : mulP z (invP z) = 1 ↔ (z : ZMod fieldPrime) * z ^ (fieldPrime - 2) = 1 := by
    rw [← cast_invP, ← cast_mulP]
    exact ⟨fun h => by rw [h, Nat.cast_one],
      fun h => eq_of_cast_eq (mulP_lt _ _) one_lt_fieldPrime (by rw [h, Nat.cast_one])⟩
  rw [hcast]
  exact ⟨fun h hz => by simp [hz] at h, mul_pow_fieldPrime_sub_two⟩

theorem toAffine_of_eq_zero {q : Point} (h : (q.z : ZMod fieldPrime) = 0) : toAffine q = none := by
  unfold toAffine
  exact if_pos (mt (mulP_invP_eq_one_iff q.z).1 (not_not.2 h))

/-- R245: X/Z and Y/Z, as the values that times Z are X and Y. -/
theorem toAffine_of_ne_zero {q : Point} (h : (q.z : ZMod fieldPrime) ≠ 0) :
    ∃ x y, toAffine q = some (x, y) ∧ (x : ZMod fieldPrime) * q.z = q.x ∧
      (y : ZMod fieldPrime) * q.z = q.y := by
  have hinv : (q.z : ZMod fieldPrime) * (invP q.z : ZMod fieldPrime) = 1 := by
    rw [cast_invP, mul_pow_fieldPrime_sub_two h]
  have hquot (n : Nat) : ((mulP n (invP q.z) : Nat) : ZMod fieldPrime) * q.z = n := by
    rw [cast_mulP, mul_assoc, mul_comm (invP q.z : ZMod fieldPrime), hinv, mul_one]
  have haff : toAffine q = some (mulP q.x (invP q.z), mulP q.y (invP q.z)) := by
    unfold toAffine
    exact if_neg (not_not.2 ((mulP_invP_eq_one_iff q.z).2 h))
  exact ⟨_, _, haff, hquot q.x, hquot q.y⟩

theorem exec_pcomp_of_some {s : State} {d a : RegIdx} {x y : Nat} (ha : a.val % 4 = 0)
    (h : toAffine (s.point a) = some (x, y)) :
    exec (.pcomp d a) s = finish (s.writeNat d (compress x y)) := by
  rw [exec, execPcomp, isPoint_eq, decide_eq_true ha, h]; rfl

theorem exec_pcomp_of_none {s : State} {d a : RegIdx} (ha : a.val % 4 = 0)
    (h : toAffine (s.point a) = none) : exec (.pcomp d a) s = failWith .invalidPoint s := by
  rw [exec, execPcomp, isPoint_eq, decide_eq_true ha, h]; rfl

/-- Settles O49: the encoding written is that of `toAffine` of the point, which there is where Z ≢ 0. -/
theorem pcompEncodesTheAffinePoint : Obligations.PcompEncodesTheAffinePoint := by
  intro d a s ha
  have hcast : ((s.point a).z : ZMod fieldPrime) = s.val (a + 2) := cast_red s (a + 2)
  refine ⟨decodeOfEncodeIsTheCommand (.pcomp d a) (decide_eq_true ha), fun hz => ?rejected,
    fun hz => ?encoded⟩
  case rejected =>
    exact exec_of_invalidPoint (exec_pcomp_of_none ha (toAffine_of_eq_zero (hcast.trans hz)))
  case encoded =>
    obtain ⟨x, y, haff, hx, hy⟩ := toAffine_of_ne_zero (hcast.trans_ne hz)
    obtain ⟨hxlt, hylt⟩ := toAffine_lt haff
    rw [hcast] at hx hy
    refine ⟨_, x, y, exec_pcomp_of_some ha haff, writesOnly_writeNat s d _, hxlt, hylt,
      hx.trans (cast_red s a), hy.trans (cast_red s (a + 1)), ?_⟩
    rw [State.reg_complete, State.reg_writeNat, if_pos rfl, compress, toNat_ofNat_of_lt]
    have hp := fieldPrime_lt
    omega

/-! ### The round trips (R246) -/

/-- The curve constant has no square root: its power (p − 1)/2 is −1. -/
theorem curveDF_not_isSquare : ¬ IsSquare curveDF := by
  have : Fact fieldPrime.Prime := ⟨fieldPrime_prime⟩
  have : Fact (2 < fieldPrime) := ⟨by decide +kernel⟩
  have hpow : powP curveD (fieldPrime / 2) = fieldPrime - 1 := by decide +kernel
  have hpowF : curveDF ^ (fieldPrime / 2) = -1 := by
    rw [curveDF, ← cast_powP _ _ (by decide +kernel), hpow, cast_fieldPrime_sub_one]
  have hne : curveDF ≠ 0 := by
    intro h
    rw [h, zero_pow (by decide +kernel)] at hpowF
    simp at hpowF
  rw [ZMod.euler_criterion fieldPrime hne, hpowF]
  exact ZMod.neg_one_ne_one

/-- The denominator of x² = (y² − 1)/(d·y² + 1) is never 0, since −1 is a square
and d is not. -/
theorem curve_denominator_ne_zero (y : ZMod fieldPrime) : curveDF * y ^ 2 + 1 ≠ 0 := by
  have : Fact fieldPrime.Prime := ⟨fieldPrime_prime⟩
  intro h
  have hy : y ≠ 0 := by
    rintro rfl
    simp at h
  refine curveDF_not_isSquare ⟨sqrtM1 / y, ?_⟩
  field_simp
  linear_combination h - sqrtM1_sq

/-- The root for the ordinate of a point of the curve is its x, up to the sign. -/
theorem rootOfOrdinate_of_onCurve {x : ZMod fieldPrime} {y : Nat}
    (h : -x ^ 2 + (y : ZMod fieldPrime) ^ 2 = 1 + curveDF * x ^ 2 * y ^ 2) :
    ∃ r, rootOfOrdinate y = some r ∧ (r : ZMod fieldPrime) ^ 2 = x ^ 2 := by
  have : Fact fieldPrime.Prime := ⟨fieldPrime_prime⟩
  have hu : ((subP (sqrP y) 1 : Nat) : ZMod fieldPrime) = y ^ 2 - 1 := by
    rw [cast_subP, cast_sqrP, Nat.cast_one]
  have hv : ((addP (mulP curveD (sqrP y)) 1 : Nat) : ZMod fieldPrime) = curveDF * y ^ 2 + 1 := by
    rw [cast_addP, cast_mulP, cast_sqrP, Nat.cast_one, curveDF]
  have hx : (curveDF * y ^ 2 + 1) * x ^ 2 = (y : ZMod fieldPrime) ^ 2 - 1 := by
    linear_combination -h
  obtain ⟨r, hr⟩ := sqrtRatio_isSome_of_root (subP_lt (sqrP y) 1) (v := addP (mulP curveD (sqrP y)) 1)
    (r := x) (by rw [hu, hv, hx])
  have hroot := sqrtRatio_isRoot (subP_lt _ _) hr
  rw [hu, hv, ← hx] at hroot
  refine ⟨r, ?_, mul_left_cancel₀ (curve_denominator_ne_zero y) hroot⟩
  rw [rootOfOrdinate, ← decompress_numerator, ← decompress_denominator,
    ← sqrtRatio_eq_sqrtFormula (subP_lt _ _), hr]

/-- R246: the point an encoding of a point of the curve stands for has the encoded y and the x of the
encoded sign. -/
theorem decompress_of_onCurve {wv : FieldWord} {x : ZMod fieldPrime} (hy : encodedY wv < fieldPrime)
    (hcurve : -x ^ 2 + (encodedY wv : ZMod fieldPrime) ^ 2 = 1 + curveDF * x ^ 2 * encodedY wv ^ 2)
    (hsign : ¬ (x = 0 ∧ wv.toNat / 2 ^ 255 = 1)) :
    ∃ r < fieldPrime, decompress wv = some (extend r (encodedY wv)) ∧
      r % 2 = wv.toNat / 2 ^ 255 ∧ (r : ZMod fieldPrime) ^ 2 = x ^ 2 := by
  have : Fact fieldPrime.Prime := ⟨fieldPrime_prime⟩
  obtain ⟨r, hr, hsq⟩ := rootOfOrdinate_of_onCurve hcurve
  have hlt := rootOfOrdinate_lt hr
  have hzero : ¬ (r = 0 ∧ signBit wv = true) := by
    rintro ⟨rfl, hbit⟩
    rw [Nat.cast_zero, zero_pow two_ne_zero, eq_comm, pow_eq_zero_iff two_ne_zero] at hsq
    exact hsign ⟨hsq, by rw [← signBit_toNat, hbit]; rfl⟩
  refine ⟨applySign (signBit wv) r, applySign_lt _ hlt, ?_, ?_, ?_⟩
  · rw [decompress_of_lt hy, hr, Option.map_some]
  · rw [applySign_mod_two hlt hzero, signBit_toNat]
  · rw [cast_applySign_sq, hsq]

/-- Of the two square roots of a residue, the parity says which. -/
theorem eq_of_sq_eq_of_mod_two_eq {x y : Nat} (hx : x < fieldPrime) (hy : y < fieldPrime)
    (hsq : (x : ZMod fieldPrime) ^ 2 = (y : ZMod fieldPrime) ^ 2) (hpar : x % 2 = y % 2) : x = y := by
  have : Fact fieldPrime.Prime := ⟨fieldPrime_prime⟩
  have hodd := fieldPrime_odd
  rcases sq_eq_sq_iff_eq_or_eq_neg.1 hsq with h | h
  · exact eq_of_cast_eq hx hy h
  · have hmod : x = (fieldPrime - y) % fieldPrime := by
      rw [← negP_eq hy]
      exact eq_of_cast_eq hx (negP_lt y) (h.trans (cast_negP y).symm)
    by_cases h0 : y = 0
    · simpa [h0] using hmod
    · rw [Nat.mod_eq_of_lt (by omega)] at hmod
      omega

/-- Settles O50: DECOMP leaves Z = 1 and an x of the encoded sign, so PCOMP puts the encoding together
again. -/
theorem compressOfDecompressIsTheEncoding : Obligations.CompressOfDecompressIsTheEncoding := by
  rintro d a e s x y hd hlt rfl hcurve hsign
  obtain ⟨r, hr, hdec, hpar, -⟩ := decompress_of_onCurve hlt hcurve hsign
  obtain ⟨t, ht, -, hX, hY, hZ, -⟩ :=
    exec_of_writePoint (exec_decomp_of_some hd hdec) (decompress_reduced hdec)
  have hone : t.val (d + 2) = 1 := by rw [State.val, hZ, extend, Nat.cast_one]
  have : Fact fieldPrime.Prime := ⟨fieldPrime_prime⟩
  obtain ⟨u, x', y', hu, -, hx', hy', hvalX, hvalY, henc⟩ :=
    (pcompEncodesTheAffinePoint e d t hd).2.2 (by rw [hone]; exact one_ne_zero)
  rw [hone, mul_one, State.val] at hvalX hvalY
  rw [hX] at hvalX
  rw [hY] at hvalY
  obtain rfl : x' = r := eq_of_cast_eq hx' hr hvalX
  obtain rfl : y' = (s.reg a).toNat % 2 ^ 255 := eq_of_cast_eq hy' hlt hvalY
  refine ⟨u, ?run, BitVec.eq_of_toNat_eq ?value⟩
  case run => rw [execAll_cons_of_next ht, execAll_cons_of_next hu, execAll]
  case value => rw [henc, hpar, Nat.mod_add_div]

/-- Settles O51: the encoding's fields are the affine y and the parity of the affine x, and of the roots
DECOMP can find only x has that parity. -/
theorem decompressOfCompressIsTheAffinePoint : Obligations.DecompressOfCompressIsTheAffinePoint := by
  rintro d a e s x y hd ha ⟨hZ, hX, hY, hcurve⟩
  have : Fact fieldPrime.Prime := ⟨fieldPrime_prime⟩
  obtain ⟨t, x', y', ht, -, hx', hy', hvalX, hvalY, henc⟩ :=
    (pcompEncodesTheAffinePoint e a s ha).2.2 hZ
  obtain rfl : (x' : ZMod fieldPrime) = x := mul_right_cancel₀ hZ (hvalX.trans hX)
  obtain rfl : (y' : ZMod fieldPrime) = y := mul_right_cancel₀ hZ (hvalY.trans hY)
  have hp := fieldPrime_lt
  have hencY : encodedY (t.reg e) = y' := by rw [encodedY, henc]; omega
  have hencX : (t.reg e).toNat / 2 ^ 255 = x' % 2 := by rw [henc]; omega
  have hsign : ¬ ((x' : ZMod fieldPrime) = 0 ∧ (t.reg e).toNat / 2 ^ 255 = 1) := by
    rintro ⟨h0, h1⟩
    rw [cast_eq_zero_iff hx'] at h0
    rw [hencX, h0] at h1
    exact absurd h1 (by decide)
  rw [← hencY] at hcurve hy'
  obtain ⟨r, hr, hdec, hpar, hsq⟩ := decompress_of_onCurve hy' hcurve hsign
  obtain rfl : r = x' := eq_of_sq_eq_of_mod_two_eq hr hx' hsq (hpar.trans hencX)
  rw [hencY] at hdec
  refine ⟨(t.writePoint d (extend r y')).complete, ?run, ?point⟩
  case run =>
    rw [execAll_cons_of_next ht, execAll_cons_of_next (exec_decomp_of_some hd hdec), execAll]
  case point =>
    rw [← extend_cast]
    exact holdsPoint_writePoint t d (decompress_reduced hdec)

end Sys2Proof.Machine
end

section
/-! PROOFS. The edwards_point_adder family (44_edwards_point.md): the formulas as the registers hold
them, and what they compute: the sum and the double of the twisted Edwards law, on points of the curve. -/

namespace Sys2Proof.Machine

/-! ### Operand checks (R126, R129) -/

theorem isPoint_of_pointIdx {r : RegIdx} (h : PointIdx r) : isPoint r = true := by
  rw [isPoint_eq]
  exact decide_eq_true h

section PointOperands

variable {d a b : RegIdx} (hd : PointIdx d) (ha : PointIdx a) (hb : PointIdx b) (s : State)

include hd in
theorem exec_pext_of_pointIdx (hpair : a ≠ 31) :
    exec (.pext d a) s = finish (s.writePoint d (extend (s.red a) (s.red (a + 1)))) := by
  rw [exec, execPext, isPoint_of_pointIdx hd, isPair_of_ne hpair]; rfl

include hd ha in
theorem exec_paff_of_some {x y : Nat} (h : toAffine (s.point a) = some (x, y)) :
    exec (.paff d a) s = finish (s.writePoint d (extend x y)) := by
  rw [exec, execPaff, isPoint_of_pointIdx hd, isPoint_of_pointIdx ha, h]; rfl

include hd ha in
theorem exec_paff_of_none (h : toAffine (s.point a) = none) :
    exec (.paff d a) s = failWith .invalidPoint s := by
  rw [exec, execPaff, isPoint_of_pointIdx hd, isPoint_of_pointIdx ha, h]; rfl

include hd ha hb in
theorem exec_padd_of_pointIdx :
    exec (.padd d a b) s = finish (s.writePoint d (addPoint (s.point a) (s.point b))) := by
  rw [exec, execPadd, isPoint_of_pointIdx hd, isPoint_of_pointIdx ha, isPoint_of_pointIdx hb]; rfl

include hd ha hb in
theorem exec_psub_of_pointIdx :
    exec (.psub d a b) s =
      finish (s.writePoint d (addPoint (s.point a) (negPoint (s.point b)))) := by
  rw [exec, execPsub, isPoint_of_pointIdx hd, isPoint_of_pointIdx ha, isPoint_of_pointIdx hb]; rfl

include hd ha in
theorem exec_pdbl_of_pointIdx :
    exec (.pdbl d a) s = finish (s.writePoint d (doublePoint (s.point a))) := by
  rw [exec, execPdbl, isPoint_of_pointIdx hd, isPoint_of_pointIdx ha]; rfl

include hd ha in
theorem exec_pneg_of_pointIdx :
    exec (.pneg d a) s = finish (s.writePoint d (negPoint (s.point a))) := by
  rw [exec, execPneg, isPoint_of_pointIdx hd, isPoint_of_pointIdx ha]; rfl

include ha hb in
theorem exec_peq_of_pointIdx :
    exec (.peq a b) s = finish (s.writeEq (eqPoint (s.point a) (s.point b))) := by
  rw [exec, execPeq, isPoint_of_pointIdx ha, isPoint_of_pointIdx hb]; rfl

end PointOperands

/-! ### The formulas as the registers hold them (R271 to R273, R275 to R277) -/

/-- A command whose meaning is to write a canonical point leaves P[d] holding it and changes nothing
else. -/
theorem holdsPoint_of_exec {i : Instr} {s : State} {d : RegIdx} {q : Point} {r : FieldPoint}
    (h : exec i s = finish (s.writePoint d q)) (hq : q.Reduced) (hr : q.cast = r) :
    ∃ t, exec i s = .next t ∧ WritesOnly [d, d + 1, d + 2, d + 3] s t ∧ HoldsPoint t d r :=
  ⟨_, h, writesOnly_writePoint s d q, hr ▸ holdsPoint_writePoint s d hq⟩

/-- Settles O52: the point written is `extend` of the pair's residues. -/
theorem pextExtendsThePair : Obligations.PextExtendsThePair := by
  intro d a s hd hpair
  obtain ⟨t, ht, hframe, hpoint⟩ := holdsPoint_of_exec (exec_pext_of_pointIdx hd s hpair)
    (extend_reduced (red_lt s a) (red_lt s (a + 1))) (extend_cast _ _)
  rw [cast_red, cast_red] at hpoint
  exact ⟨t, ht, hframe, hpoint,
    decodeOfEncodeIsTheCommand (.pext d a) (decide_eq_true ⟨hd, pairIdx_of_ne hpair⟩)⟩

/-- Settles O53: the point written is `extend` of `toAffine` of the point, which there is where
Z ≢ 0. -/
theorem paffNormalises : Obligations.PaffNormalises := by
  intro d a s hd ha
  have hcast : ((s.point a).z : ZMod fieldPrime) = s.val (a + 2) := cast_red s (a + 2)
  refine ⟨decodeOfEncodeIsTheCommand (.paff d a) (decide_eq_true ⟨hd, ha⟩), fun hz => ?rejected,
    fun hz => ?normalised⟩
  case rejected =>
    exact exec_of_invalidPoint (exec_paff_of_none hd ha s (toAffine_of_eq_zero (hcast.trans hz)))
  case normalised =>
    obtain ⟨x, y, haff, hx, hy⟩ := toAffine_of_ne_zero (hcast.trans_ne hz)
    obtain ⟨hxlt, hylt⟩ := toAffine_lt haff
    obtain ⟨t, ht, hframe, hpoint⟩ := holdsPoint_of_exec (exec_paff_of_some hd ha s haff)
      (extend_reduced hxlt hylt) (extend_cast x y)
    rw [hcast] at hx hy
    exact ⟨t, x, y, ht, hframe, hpoint, hx.trans (cast_red s a), hy.trans (cast_red s (a + 1))⟩

/-- Settles O54: the points written are `addPoint` of the two points, the second as it is or
negated. -/
theorem paddPsubFollowTheFormula : Obligations.PaddPsubFollowTheFormula := by
  intro d a b s hd ha hb
  refine ⟨?padd, ?psub⟩
  case padd =>
    obtain ⟨t, ht, hframe, hpoint⟩ := holdsPoint_of_exec (exec_padd_of_pointIdx hd ha hb s)
      (addPoint_reduced _ _) (addPoint_cast _ _)
    rw [point_cast, point_cast] at hpoint
    exact ⟨t, ht, hframe, hpoint,
      decodeOfEncodeIsTheCommand (.padd d a b) (decide_eq_true ⟨hd, ha, hb⟩)⟩
  case psub =>
    obtain ⟨t, ht, hframe, hpoint⟩ := holdsPoint_of_exec (exec_psub_of_pointIdx hd ha hb s)
      (addPoint_reduced _ _) (addPoint_cast _ _)
    rw [negPoint_cast, point_cast, point_cast] at hpoint
    exact ⟨t, ht, hframe, hpoint,
      decodeOfEncodeIsTheCommand (.psub d a b) (decide_eq_true ⟨hd, ha, hb⟩)⟩

/-- Settles O55: the points written are `doublePoint` and `negPoint` of the point. -/
theorem pdblPnegFollowTheirFormulas : Obligations.PdblPnegFollowTheirFormulas := by
  intro d a s hd ha
  refine ⟨?pdbl, ?pneg⟩
  case pdbl =>
    obtain ⟨t, ht, hframe, hpoint⟩ := holdsPoint_of_exec (exec_pdbl_of_pointIdx hd ha s)
      (doublePoint_reduced _) (doublePoint_cast _)
    rw [point_cast] at hpoint
    exact ⟨t, ht, hframe, hpoint,
      decodeOfEncodeIsTheCommand (.pdbl d a) (decide_eq_true ⟨hd, ha⟩)⟩
  case pneg =>
    obtain ⟨t, ht, hframe, hpoint⟩ := holdsPoint_of_exec (exec_pneg_of_pointIdx hd ha s)
      (negPoint_reduced (point_reduced s a)) (negPoint_cast _)
    rw [point_cast] at hpoint
    exact ⟨t, ht, hframe, hpoint,
      decodeOfEncodeIsTheCommand (.pneg d a) (decide_eq_true ⟨hd, ha⟩)⟩

/-! ### PEQ (R278) -/

/-- The model's test of a difference mod p, in ZMod p. -/
theorem modP_sub_beq_zero (m n k l : Nat) :
    (modP ((m : Int) * n - k * l) == 0) = true ↔ (m * n : ZMod fieldPrime) = k * l := by
  rw [beq_iff_eq, ← cast_eq_zero_iff (modP_lt _), cast_modP]
  push_cast
  exact sub_eq_zero

theorem eqPoint_iff (q r : Point) :
    eqPoint q r = true ↔ (q.x * r.z : ZMod fieldPrime) = r.x * q.z ∧
      (q.y * r.z : ZMod fieldPrime) = r.y * q.z := by
  rw [eqPoint, Bool.and_eq_true, modP_sub_beq_zero, modP_sub_beq_zero]

/-- Settles O56: EQ is written with `eqPoint` of the two points. -/
theorem peqComparesProjectively : Obligations.PeqComparesProjectively := by
  intro a b s ha hb
  have hiff := eqPoint_iff (s.point a) (s.point b)
  simp only [State.point, cast_red] at hiff
  exact ⟨_, exec_peq_of_pointIdx ha hb s, writesEqOnly_writeEq s _, hiff,
    decodeOfEncodeIsTheCommand (.peq a b) (decide_eq_true ⟨ha, hb⟩)⟩

/-! ### A point and itself (R273) -/

/-- For equal operands A = B, so F = 0. -/
theorem addPoint_self (q : Point) : addPoint q q = doublePoint q := by
  have hF : subP (mulP (addP q.y q.x) (subP q.y q.x)) (mulP (subP q.y q.x) (addP q.y q.x)) = 0 := by
    rw [← cast_eq_zero_iff (subP_lt _ _), cast_subP, cast_mulP, cast_mulP, mul_comm, sub_self]
  exact if_pos hF

/-- Settles O57: both commands write the double of the point. -/
theorem paddOfAPointAndItselfIsPdbl : Obligations.PaddOfAPointAndItselfIsPdbl := by
  intro d a s hd ha
  rw [exec_padd_of_pointIdx hd ha ha s, exec_pdbl_of_pointIdx hd ha s, addPoint_self]

/-! ### The group sum (R274) -/

theorem two_ne_zero_fieldPrime : (2 : ZMod fieldPrime) ≠ 0 := by
  have h : (2 : Nat) < fieldPrime := by decide +kernel
  exact_mod_cast mt (cast_eq_zero_iff h).1 two_ne_zero

section GroupSum

variable {q r : FieldPoint} {x1 y1 x2 y2 : ZMod fieldPrime}

/-- The F of the formula is 2·Z1·Z2·(x1·y2 − y1·x2). -/
theorem addF_of_represents (hq : Represents q x1 y1) (hr : Represents r x2 y2) :
    addF q r = 2 * q.z * r.z * (x1 * y2 - y1 * x2) := by
  obtain ⟨-, hqx, hqy, -, -⟩ := hq
  obtain ⟨-, hrx, hry, -, -⟩ := hr
  rw [addF, hqx, hqy, hrx, hry]
  ring

/-- Where F is not 0, each of E, F, G, H is 2·Z1·Z2 times an expression in the affine coordinates. -/
theorem addFormula_of_represents (hq : Represents q x1 y1) (hr : Represents r x2 y2)
    (hF : addF q r ≠ 0) :
    addFormula q r =
      ⟨(2 * q.z * r.z) ^ 2 * ((x1 * y1 + x2 * y2) * (x1 * y2 - y1 * x2)),
        (2 * q.z * r.z) ^ 2 * ((y1 * y2 - x1 * x2) * (x1 * y1 - x2 * y2)),
        (2 * q.z * r.z) ^ 2 * ((x1 * y2 - y1 * x2) * (y1 * y2 - x1 * x2)),
        (2 * q.z * r.z) ^ 2 * ((x1 * y1 + x2 * y2) * (x1 * y1 - x2 * y2))⟩ := by
  rw [addFormula_of_ne hF, addF_of_represents hq hr]
  obtain ⟨-, hqx, hqy, hqt, -⟩ := hq
  obtain ⟨-, hrx, hry, hrt, -⟩ := hr
  rw [hqx, hqy, hqt, hrx, hry, hrt, FieldPoint.mk.injEq]
  refine ⟨?_, ?_, ?_, ?_⟩ <;> ring

/-- The numerators of the law against those of the formula, on two points of the curve. -/
theorem sum_numerators (h1 : -x1 ^ 2 + y1 ^ 2 = 1 + curveDF * x1 ^ 2 * y1 ^ 2)
    (h2 : -x2 ^ 2 + y2 ^ 2 = 1 + curveDF * x2 ^ 2 * y2 ^ 2) :
    (x1 * y1 + x2 * y2) * (1 + curveDF * x1 * x2 * y1 * y2) =
        (y1 * y2 - x1 * x2) * (x1 * y2 + y1 * x2) ∧
      (x1 * y1 - x2 * y2) * (1 - curveDF * x1 * x2 * y1 * y2) =
        (x1 * y2 - y1 * x2) * (y1 * y2 + x1 * x2) := by
  constructor
  · linear_combination -(x2 * y2) * h1 - (x1 * y1) * h2
  · linear_combination (x2 * y2) * h1 - (x1 * y1) * h2

end GroupSum

/-- Settles O58: the coordinates written are those of `addFormula_of_represents`, and `sum_numerators`
makes them the law's. -/
theorem paddIsTheGroupSum : Obligations.PaddIsTheGroupSum := by
  intro d a b s x1 y1 x2 y2 hd ha hb hq hr hne
  have : Fact fieldPrime.Prime := ⟨fieldPrime_prime⟩
  obtain ⟨t, ht, -, hpoint, -⟩ := (paddPsubFollowTheFormula d a b s hd ha hb).1
  have hk : 2 * (s.fieldPoint a).z * (s.fieldPoint b).z ≠ 0 :=
    mul_ne_zero (mul_ne_zero two_ne_zero_fieldPrime hq.1) hr.1
  have hdiff : x1 * y2 - y1 * x2 ≠ 0 := sub_ne_zero.2 hne
  have hF : addF (s.fieldPoint a) (s.fieldPoint b) ≠ 0 := by
    rw [addF_of_represents hq hr]
    exact mul_ne_zero hk hdiff
  rw [addFormula_of_represents hq hr hF] at hpoint
  obtain ⟨-, -, -, -, hcurve1⟩ := hq
  obtain ⟨-, -, -, -, hcurve2⟩ := hr
  obtain ⟨hX, hY⟩ := sum_numerators hcurve1 hcurve2
  refine ⟨t, ht, ?_⟩
  rw [fieldPoint_of_holdsPoint hpoint]
  generalize 2 * (s.fieldPoint a).z * (s.fieldPoint b).z = k at hk
  refine ⟨?x, ?y, ?t, ?z⟩
  case x => linear_combination k ^ 2 * (x1 * y2 - y1 * x2) * hX
  case y => linear_combination k ^ 2 * (y1 * y2 - x1 * x2) * hY
  case t => ring
  case z =>
    rw [mul_eq_zero_iff_left (pow_ne_zero 2 hk), mul_eq_zero_iff_left hdiff, sub_eq_zero]

/-! ### The group double (R276) -/

/-- The denominators of the law's double are never 0, since −1 is a square and d is not. -/
theorem double_denominators_ne_zero (x y : ZMod fieldPrime) :
    1 + curveDF * x ^ 2 * y ^ 2 ≠ 0 ∧ 1 - curveDF * x ^ 2 * y ^ 2 ≠ 0 := by
  have hplus := curve_denominator_ne_zero (x * y)
  have hminus := curve_denominator_ne_zero (sqrtM1 * (x * y))
  rw [mul_pow, sqrtM1_sq] at hminus
  exact ⟨fun h => hplus (by linear_combination h), fun h => hminus (by linear_combination h)⟩

section GroupDouble

variable {q : FieldPoint} {x y : ZMod fieldPrime}

/-- Each of E, F, G, H is Z² times an expression in the affine coordinates. -/
theorem doubleFormula_of_projects (hq : Projects q x y) :
    doubleFormula q =
      ⟨q.z ^ 4 * (2 * x * y * -(1 - curveDF * x ^ 2 * y ^ 2)),
        q.z ^ 4 * ((1 + curveDF * x ^ 2 * y ^ 2) * -(y ^ 2 + x ^ 2)),
        q.z ^ 4 * (-(1 - curveDF * x ^ 2 * y ^ 2) * (1 + curveDF * x ^ 2 * y ^ 2)),
        q.z ^ 4 * (2 * x * y * -(y ^ 2 + x ^ 2))⟩ := by
  obtain ⟨-, hX, hY, hcurve⟩ := hq
  have hG : -(x * q.z) ^ 2 + (y * q.z) ^ 2 = q.z ^ 2 * (1 + curveDF * x ^ 2 * y ^ 2) := by
    linear_combination q.z ^ 2 * hcurve
  rw [doubleFormula, hX, hY]
  simp only [hG, FieldPoint.mk.injEq]
  refine ⟨?_, ?_, ?_, ?_⟩ <;> ring

/-- The law's double of a point of the curve is on the curve. -/
theorem double_onCurve (h : -x ^ 2 + y ^ 2 = 1 + curveDF * x ^ 2 * y ^ 2) {x3 y3 : ZMod fieldPrime}
    (hx3 : x3 * (1 + curveDF * x ^ 2 * y ^ 2) = 2 * x * y)
    (hy3 : y3 * (1 - curveDF * x ^ 2 * y ^ 2) = y ^ 2 + x ^ 2) :
    -x3 ^ 2 + y3 ^ 2 = 1 + curveDF * x3 ^ 2 * y3 ^ 2 := by
  have : Fact fieldPrime.Prime := ⟨fieldPrime_prime⟩
  obtain ⟨hplus, hminus⟩ := double_denominators_ne_zero x y
  have hsq : (y ^ 2 + x ^ 2) ^ 2 = (1 + curveDF * x ^ 2 * y ^ 2) ^ 2 + 4 * x ^ 2 * y ^ 2 := by
    linear_combination (-x ^ 2 + y ^ 2 + 1 + curveDF * x ^ 2 * y ^ 2) * h
  generalize hdelta : curveDF * x ^ 2 * y ^ 2 = delta at *
  rw [eq_div_of_mul_eq hplus hx3, eq_div_of_mul_eq hminus hy3]
  field_simp
  linear_combination ((1 + delta) ^ 2 - 4 * delta) * hsq - 4 * (y ^ 2 + x ^ 2) ^ 2 * hdelta

/-- The formula's double of a point of the curve, whatever its T, is a valid extended point of the
law's. -/
theorem represents_doubleFormula (hq : Projects q x y) :
    ∃ x3 y3, Represents (doubleFormula q) x3 y3 ∧
      x3 * (1 + curveDF * x ^ 2 * y ^ 2) = 2 * x * y ∧
      y3 * (1 - curveDF * x ^ 2 * y ^ 2) = y ^ 2 + x ^ 2 := by
  have : Fact fieldPrime.Prime := ⟨fieldPrime_prime⟩
  obtain ⟨hplus, hminus⟩ := double_denominators_ne_zero x y
  obtain ⟨x3, hx3⟩ : ∃ x3, x3 * (1 + curveDF * x ^ 2 * y ^ 2) = 2 * x * y :=
    ⟨_, div_mul_cancel₀ _ hplus⟩
  obtain ⟨y3, hy3⟩ : ∃ y3, y3 * (1 - curveDF * x ^ 2 * y ^ 2) = y ^ 2 + x ^ 2 :=
    ⟨_, div_mul_cancel₀ _ hminus⟩
  refine ⟨x3, y3, ?_, hx3, hy3⟩
  rw [doubleFormula_of_projects hq]
  obtain ⟨hz, -, -, hcurve⟩ := hq
  refine ⟨?z, ?x, ?y, ?t, double_onCurve hcurve hx3 hy3⟩
  case z => exact mul_ne_zero (pow_ne_zero 4 hz) (mul_ne_zero (neg_ne_zero.2 hminus) hplus)
  case x => linear_combination q.z ^ 4 * (1 - curveDF * x ^ 2 * y ^ 2) * hx3
  case y => linear_combination q.z ^ 4 * (1 + curveDF * x ^ 2 * y ^ 2) * hy3
  case t => linear_combination q.z ^ 4 * ((y ^ 2 + x ^ 2) * hx3 +
    x3 * (1 + curveDF * x ^ 2 * y ^ 2) * hy3)

end GroupDouble

/-- Settles O59: the point written is the formula's double, a valid point of the law's. -/
theorem pdblIsTheGroupDouble : Obligations.PdblIsTheGroupDouble := by
  intro d a s x y hd ha hq
  obtain ⟨t, ht, -, hpoint, -⟩ := (pdblPnegFollowTheirFormulas d a s hd ha).1
  obtain ⟨x3, y3, hrep, hx3, hy3⟩ := represents_doubleFormula hq
  rw [← fieldPoint_of_holdsPoint hpoint] at hrep
  exact ⟨t, x3, y3, ht, hrep, hx3, hy3⟩

end Sys2Proof.Machine
end

section
/-! PROOFS. The exceptions family (60_exceptions.md): what the error record keeps, which words and
commands record an error, and that none stops the block. -/

namespace Sys2Proof.Machine

variable {s t : State} {w : Word}

/-! ### The first error is kept (R311, R323) -/

theorem SameError.refl (s : State) : SameError s s := ⟨rfl, rfl, rfl, rfl⟩

/-- A later error leaves no trace. -/
theorem recordError_of_err (h : s.err = true) (e : ErrorCode) (src : Bool) (info : Word) :
    s.recordError e src info = s := if_pos h

/-- The core's turn keeps the first error. -/
theorem coreStep_keeps_firstError (ht : coreStep s = .next t) (herr : s.err = true) :
    SameError s t := by
  obtain ⟨u, hu, hcases⟩ := coreStep_next (s := s)
  obtain rfl : u = t := by simpa [hu] using ht
  rcases hcases with ⟨-, rfl⟩ | ⟨w, -, ⟨i, -, hs⟩ | ⟨e, rfl⟩⟩
  · exact .refl u
  · exact hs.sameError
  · rw [State.fail, recordError_of_err herr]
    exact .refl s

/-- The host's turn keeps the first error, unless it resets the block or acknowledges the error. -/
theorem HostEffect.keeps_firstError {tr : Transaction} (he : HostEffect s tr t)
    (herr : s.err = true) :
    SameError s t ∨ ∃ off v, tr = .write off v ∧
      (off.toNat / 4 = 3 ∧ v.getLsbD 31 = true ∨ off.toNat / 4 = 4 ∧ v.getLsbD 2 = true) := by
  cases he with
  | softReset off v hoff hv => exact .inr ⟨off, v, rfl, .inl ⟨hoff, hv⟩⟩
  | status off v hoff =>
    cases hv : v.getLsbD 2 with
    | true => exact .inr ⟨off, v, rfl, .inr ⟨hoff, hv⟩⟩
    | false =>
      left
      rw [writeStatus_eq, hv]
      simp [SameError]
  | cmdDiscarded | fieldDiscarded =>
    left
    rw [recordError_of_err herr]
    exact .refl s
  | _ => exact .inl (.refl s)

/-- Settles O16: both turns keep the record; the two writes that do not are not next. -/
theorem firstErrorIsKept : Obligations.FirstErrorIsKept := by
  intro s t ht herr hreset hack
  rcases step_cases s with ⟨-, hs⟩ | ⟨tr, hhead, hs⟩ | ⟨hhead, -⟩ | ⟨-, hs⟩
  · exact coreStep_keeps_firstError (s := s.advance) (hs.symm.trans ht) herr
  · obtain rfl : s.advance.transact tr = t := by simpa [hs] using ht
    have he := transact_effect s.advance tr
    refine (he.keeps_firstError herr).resolve_right ?_
    rintro ⟨off, v, rfl, hctrl | hstatus⟩
    · exact hreset (.inr ⟨off, v, hhead, hctrl⟩)
    · exact hack ⟨off, v, hhead, hstatus⟩
  · exact absurd (.inl hhead) hreset
  · simp [hs] at ht

/-! ### Illegal words (R313, R314) -/

theorem currentWord_of_inFlight (hw : s.inFlight = some w) : s.currentWord = w := by
  simp [State.currentWord, hw]

/-- A word of no reserved OP that is no encoding of a well-formed command is an illegal operand. -/
theorem decode_eq_illegalOperand (hop : ¬ ReservedOp (w.toNat % 2 ^ 6))
    (henc : ∀ i, WellFormed i → encode i ≠ w) : decode w = .error .illegalOperand := by
  rcases hd : decode w with (_ | _) | i
  · exact absurd ((reservedOpcodesAreIllegal w).1 hd) hop
  · rfl
  · obtain ⟨hwf, hi⟩ := legalWordIsTheOneEncoding w i hd
    exact absurd hi (henc i hwf)

/-- R312: what a command error leaves, with the word in flight in the record. -/
theorem failsWith_fail_of_inFlight (hw : s.inFlight = some w) (e : ErrorCode) :
    FailsWith e.code w s (s.fail e) := by
  have h := failsWith_fail s e
  rwa [currentWord_of_inFlight hw] at h

/-- Settles O8: the core's turn is the failure of the decode error. -/
theorem illegalWordsEndWithTheirError : Obligations.IllegalWordsEndWithTheirError := by
  intro s w hcore hw
  have hfail := failsWith_fail_of_inFlight (s := s.advance) hw
  have hstep : ∀ {e}, decode w = .error e → step s = .next (s.advance.failDecode e) := fun hd =>
    (step_of_coreIsNext hcore).trans (coreStep_of_error (s := s.advance) hw hd)
  refine ⟨fun hop => ?opcode, fun hop henc => ?operand⟩
  case opcode => exact ⟨_, hstep ((reservedOpcodesAreIllegal w).2 hop), hfail .illegalOpcode⟩
  case operand => exact ⟨_, hstep (decode_eq_illegalOperand hop henc), hfail .illegalOperand⟩

/-! ### No error stops the block (R310) -/

/-- The inputs left after a step keep the bus protocol. -/
theorem SafeInputs.of_tail (h : SafeInputs s) (ht : t.events = s.events.tail) : SafeInputs t :=
  fun hmem => h (List.mem_of_mem_tail (ht ▸ hmem))

/-- Settles O10: only the unstable transaction is refused, and every turn leaves the tail of the
inputs. -/
theorem everyStepGoesOn : Obligations.EveryStepGoesOn := by
  intro s hsafe
  rcases step_cases s with ⟨-, hs⟩ | ⟨tr, -, hs⟩ | ⟨-, hs⟩ | ⟨hhead, -⟩
  · obtain ⟨t, ht, -⟩ := coreStep_next (s := s.advance)
    exact ⟨t, hs.trans ht, hsafe.of_tail (coreStep_events ht)⟩
  · exact ⟨_, hs, hsafe.of_tail (transact_events s.advance tr)⟩
  · exact ⟨_, hs, hsafe.of_tail rfl⟩
  · exact absurd (List.mem_of_mem_head? hhead) hsafe

/-! ### Commands that cannot fail (R316, R363) -/

/-- The outcome of a command that leaves the error record. -/
def KeepsError (s : State) (o : Host.Outcome State Fault Refusal) : Prop :=
  ∃ t, o = .next t ∧ SameError s t

theorem keepsError_finish (h : SameError s t) : KeepsError s (finish t) := ⟨_, rfl, h⟩

/-- The operand check passes. -/
theorem keepsError_guardOperands {ok : Bool} {run : Host.Outcome State Fault Refusal}
    (hok : ok = true) (h : KeepsError s run) : KeepsError s (guardOperands ok s run) := by
  rwa [hok, guardOperands_true]

theorem isPair_of_pairIdx {r : RegIdx} (h : PairIdx r) : isPair r = true := by
  rw [isPair_eq]
  exact decide_eq_true h

/-- Case by case: the operand checks are those of well-formedness, and behind them only the four
commands can reject. -/
theorem exec_keepsError {i : Instr} (hwf : WellFormed i) (hi : canRejectPoint i = false)
    (s : State) : KeepsError s (exec i s) := by
  cases i with
  | sqrtratio _ _ _ | decomp _ _ | pcomp _ _ | paff _ _ => cases hi
  | fconst d c =>
    have hc : constTable c.toNat ≠ none := by
      rw [Ne, constTable_eq_none, not_lt]
      exact of_decide_eq_true hwf
    obtain ⟨v, hv⟩ := Option.ne_none_iff_exists'.1 hc
    rw [exec_fconst_of_some hv]
    exact keepsError_finish (.refl s)
  | redp | redl | pow22523 =>
    exact keepsError_guardOperands (isPair_of_pairIdx (of_decide_eq_true hwf))
      (keepsError_finish (.refl s))
  | pext d a =>
    obtain ⟨hd, ha⟩ := of_decide_eq_true hwf
    refine keepsError_guardOperands ?_ (keepsError_finish (.refl s))
    rw [isPoint_of_pointIdx hd, isPair_of_pairIdx ha, Bool.and_self]
  | padd d a b | psub d a b =>
    obtain ⟨hd, ha, hb⟩ := of_decide_eq_true hwf
    refine keepsError_guardOperands ?_ (keepsError_finish (.refl s))
    simp only [isPoint_of_pointIdx hd, isPoint_of_pointIdx ha, isPoint_of_pointIdx hb, Bool.and_self]
  | pdbl d a | pneg d a =>
    obtain ⟨hd, ha⟩ := of_decide_eq_true hwf
    refine keepsError_guardOperands ?_ (keepsError_finish (.refl s))
    rw [isPoint_of_pointIdx hd, isPoint_of_pointIdx ha, Bool.and_self]
  | peq a b =>
    obtain ⟨ha, hb⟩ := of_decide_eq_true hwf
    refine keepsError_guardOperands ?_ (keepsError_finish (.refl s))
    rw [isPoint_of_pointIdx ha, isPoint_of_pointIdx hb, Bool.and_self]
  | _ => exact keepsError_finish (.refl s)

/-- Settles O17: the state answered is the one `exec_keepsError` speaks of. -/
theorem onlyFourCommandsCanFail : Obligations.OnlyFourCommandsCanFail := by
  intro i s t hwf hi ht
  obtain ⟨u, hu, hsame⟩ := exec_keepsError hwf hi s
  obtain rfl : u = t := by simpa [hu] using ht
  exact hsame

/-! ### Writes while BUSY = 1 (R89, R315) -/

/-- Recording an error changes the error record only. -/
theorem recordError_changes_record (s : State) (e : ErrorCode) (src : Bool) (info : Word) :
    s.recordError e src info =
      { s with
        err := (s.recordError e src info).err
        errCode := (s.recordError e src info).errCode
        errSrc := (s.recordError e src info).errSrc
        errInfo := (s.recordError e src info).errInfo } := by
  unfold State.recordError
  split_ifs <;> rfl

theorem busWrite_of_busy_cmd (hb : s.busy = true) {off : Offset} (h : off.toNat / 4 = 5)
    (v : Word) : s.busWrite off v = s.recordError .busyAccess false v := by
  rw [busWrite_of_cmd s v h, State.writeCmd, if_pos hb]

/-- R87: every word from 0x100 to 0x4FC lies in a field register. -/
theorem exists_slot {off : Offset} (h : 0x40 ≤ off.toNat / 4 ∧ off.toNat / 4 < 0x140) :
    ∃ (i : RegIdx) (j : Fin 8), off.toNat / 4 = 0x40 + 8 * i.val + j.val :=
  ⟨⟨(off.toNat / 4 - 0x40) / 8, by omega⟩, ⟨(off.toNat / 4 - 0x40) % 8, by omega⟩, by
    dsimp only; omega⟩

theorem busWrite_of_busy_field (hb : s.busy = true) {off : Offset}
    (h : 0x40 ≤ off.toNat / 4 ∧ off.toNat / 4 < 0x140) (v : Word) :
    s.busWrite off v = s.recordError .busyAccess true (BitVec.ofNat 32 (off.toNat / 4 * 4)) := by
  obtain ⟨i, j, hslot⟩ := exists_slot h
  have hinfo : (align off).setWidth 32 = BitVec.ofNat 32 (off.toNat / 4 * 4) := by
    rw [← align_toNat, BitVec.ofNat_toNat]
  rw [busWrite_of_field s v hslot, State.writeField, if_pos hb, hinfo]

/-- Settles O24: the state answered is that of the input taken, with the busy access recorded. -/
theorem busyWritesAreDiscardedAndRecorded : Obligations.BusyWritesAreDiscardedAndRecorded := by
  intro s off v hhead hbusy
  have hb : s.advance.busy = true := hbusy
  rw [step_of_write hhead]
  refine ⟨fun hcmd => ?cmd, fun hfield => ?field⟩
  case cmd =>
    rw [busWrite_of_busy_cmd hb hcmd]
    exact ⟨_, rfl, recorded_recordError s.advance .busyAccess _ _,
      recordError_changes_record s.advance _ _ _⟩
  case field =>
    rw [busWrite_of_busy_field hb hfield]
    exact ⟨_, rfl, recorded_recordError s.advance .busyAccess _ _,
      recordError_changes_record s.advance _ _ _⟩

/-! ### The core's turn on a word in flight -/

theorem coreStep_completes_of_inFlight (hw : s.inFlight = some w) (ht : coreStep s = .next t) :
    Completes s t := by
  obtain ⟨r, hr⟩ := coreStep_gives w s.f
  obtain rfl : r.apply s = t := by simpa [hr s rfl hw] using ht
  exact (r.apply_completes s).1

/-- The registers it leaves depend on the word and the registers alone. -/
theorem coreStep_f_congr {s' t' : State} (hf : s.f = s'.f) (hw : s.inFlight = some w)
    (hw' : s'.inFlight = some w) (ht : coreStep s = .next t) (ht' : coreStep s' = .next t') :
    t.f = t'.f := by
  obtain ⟨r, hr⟩ := coreStep_gives w s.f
  obtain rfl : r.apply s = t := by simpa [hr s rfl hw] using ht
  obtain rfl : r.apply s' = t' := by simpa [hr s' hf.symm hw'] using ht'
  exact r.apply_f_congr hf

/-- R313, R314, R316: a word that ends with an error does so wherever the registers are the same. -/
theorem coreStep_of_endsWithCode {s' : State} {code : BitVec 4} (h : EndsWithCode w s code)
    (hf : s'.f = s.f) (hw : s'.inFlight = some w) :
    ∃ e : ErrorCode, e.code = code ∧ coreStep s' = .next (s'.fail e) := by
  rcases h with ⟨rfl, hop⟩ | ⟨rfl, hop, henc⟩ | ⟨rfl, i, u, hd, hu, hcode⟩
  · exact ⟨.illegalOpcode, rfl, coreStep_of_error hw ((reservedOpcodesAreIllegal w).2 hop)⟩
  · exact ⟨.illegalOperand, rfl, coreStep_of_error hw (decode_eq_illegalOperand hop henc)⟩
  · obtain ⟨e, he, hfail⟩ := exec_fail_of_errCode hu (by rw [hcode]; decide)
    exact ⟨e, he.trans hcode, (coreStep_of_decode hw hd).trans (hfail s' hf)⟩

/-! ### A cycle in which a completion falls (R319) -/

/-- The host's write leaves the registers and the command in flight, unless it is one of CTRL. -/
theorem hostPart_write_of_busy (hb : s.busy = true) {off : Offset} (h : off.toNat / 4 ≠ 3)
    (v : Word) :
    (hostPart s (some (.write off v))).f = s.f ∧
      (hostPart s (some (.write off v))).lastCmd = s.lastCmd ∧
      (hostPart s (some (.write off v))).inFlight = s.inFlight := by
  have he := transact_effect { s with rdata := none } (.write off v)
  rcases he.keeps_command hb with ⟨hf, hlast, hflight, -⟩ | ⟨off', v', heq, hctrl, -⟩
  · exact ⟨hf, hlast, hflight⟩
  · cases heq
    exact absurd hctrl h

/-- A busy access recorded before the core's turn is the error kept. -/
theorem coreStep_keeps_recorded {e : ErrorCode} {src : Bool} {info : Word}
    (ht : coreStep (s.recordError e src info) = .next t) (herr : s.err = false) :
    t.errCode = e.code ∧ t.errSrc = src ∧ t.errInfo = info := by
  obtain ⟨hset, hfirst, -⟩ := recorded_recordError s e src info
  obtain ⟨-, hcode, hsrc, hinfo⟩ := coreStep_keeps_firstError ht hset
  rw [hcode, hsrc, hinfo]
  exact hfirst herr

section LastCycle

variable {m : Clocked} (hb : m.s.busy = true) (hw : m.s.inFlight = some w) (hleft : m.left ≤ 1)
  (lat : Word → Nat) {off : Offset} (v : Word)

include hw hleft in
/-- The completion step follows the host's part. -/
theorem cycle_of_lastCycle {host : Option Transaction}
    (hh : (hostPart m.s host).inFlight = some w) :
    ∃ u, cycle lat ⟨true, host⟩ m = .next ⟨u, 0⟩ ∧ coreStep (hostPart m.s host) = .next u := by
  obtain ⟨u, hu, -⟩ := coreStep_next (s := hostPart m.s host)
  exact ⟨u, (cycle_of_inFlight hw hh).trans (corePart_done hleft hu), hu⟩

include hb hw hleft in
/-- The completion after a write that is not one of CTRL: a word that ends with an error fails in the
state the write leaves, so with the registers as they were. -/
theorem cycle_of_write_in_lastCycle (hoff : off.toNat / 4 ≠ 3) :
    ∃ u, cycle lat ⟨true, some (.write off v)⟩ m = .next ⟨u, 0⟩ ∧
      coreStep (hostPart m.s (some (.write off v))) = .next u ∧
      Completes (hostPart m.s (some (.write off v))) u ∧
      ∀ code, EndsWithCode w m.s code →
        u.f = m.s.f ∧ FailsWith code w (hostPart m.s (some (.write off v))) u := by
  obtain ⟨hf, -, hflight⟩ := hostPart_write_of_busy hb hoff v
  have hh := hflight.trans hw
  obtain ⟨u, hcycle, hu⟩ := cycle_of_lastCycle hw hleft lat hh
  refine ⟨u, hcycle, hu, coreStep_completes_of_inFlight hh hu, fun code hcode => ?_⟩
  obtain ⟨e, rfl, hfail⟩ := coreStep_of_endsWithCode hcode hf hh
  obtain rfl : State.fail _ e = u := by simpa [hfail] using hu
  exact ⟨(State.fail_f _ e).trans hf, failsWith_fail_of_inFlight hh e⟩

include hb hw hleft in
/-- R54, R55: clearing DONE and ERR loses to the completion. -/
theorem statusWrite_in_lastCycle (hoff : off.toNat / 4 = 4) :
    ∃ n, cycle lat ⟨true, some (.write off v)⟩ m = .next n ∧ n.s.busy = false ∧ n.s.done = true ∧
      ∀ code, EndsWithCode w m.s code → n.s.err = true ∧
        (v.getLsbD 2 = true ∨ m.s.err = false →
          n.s.errCode = code ∧ n.s.errSrc = false ∧ n.s.errInfo = w) := by
  obtain ⟨u, hcycle, -, hc, hends⟩ :=
    cycle_of_write_in_lastCycle hb hw hleft lat v (off := off) (by omega)
  refine ⟨_, hcycle, hc.busy, hc.done, fun code hcode => ?_⟩
  obtain ⟨-, -, -, -, herr, hfirst, -⟩ := hends code hcode
  refine ⟨herr, fun hclear => hfirst ?_⟩
  rw [hostPart, State.transact, busWrite_of_status _ v hoff, writeStatus_eq]
  rcases hclear with hv | hnoErr
  · simp only [hv, Bool.not_true, Bool.and_false]
  · simp only [hnoErr, Bool.false_and]

include hb hw hleft in
/-- R315: CMD is discarded, and the busy access is the error kept. -/
theorem cmdWrite_in_lastCycle (hoff : off.toNat / 4 = 5) :
    ∃ n, cycle lat ⟨true, some (.write off v)⟩ m = .next n ∧ n.s.busy = false ∧
      n.s.done = true ∧ n.s.inFlight = none ∧ n.s.lastCmd = m.s.lastCmd ∧
      (m.s.err = false → n.s.errCode = 3 ∧ n.s.errSrc = false ∧ n.s.errInfo = v) := by
  have hne : off.toNat / 4 ≠ 3 := by omega
  obtain ⟨u, hcycle, hu, hc, -⟩ := cycle_of_write_in_lastCycle hb hw hleft lat v hne
  obtain ⟨-, hlast, -⟩ := hostPart_write_of_busy hb hne v
  refine ⟨_, hcycle, hc.busy, hc.done, hc.inFlight, hc.lastCmd.trans hlast, fun herr => ?_⟩
  have hdiscard := busWrite_of_busy_cmd (s := { m.s with rdata := none }) hb hoff v
  rw [hostPart, State.transact, hdiscard] at hu
  exact coreStep_keeps_recorded hu herr

include hb hw hleft in
/-- R89, R315: a field write is discarded, and the busy access is the error kept. -/
theorem fieldWrite_in_lastCycle (hoff : 0x40 ≤ off.toNat / 4 ∧ off.toNat / 4 < 0x140) :
    ∃ n n', cycle lat ⟨true, some (.write off v)⟩ m = .next n ∧
      cycle lat ⟨true, none⟩ m = .next n' ∧ n.s.busy = false ∧ n.s.done = true ∧
      n.s.f = n'.s.f ∧ (∀ code, EndsWithCode w m.s code → n.s.f = m.s.f) ∧
      (m.s.err = false → n.s.errCode = 3 ∧ n.s.errSrc = true ∧
        n.s.errInfo = BitVec.ofNat 32 (off.toNat / 4 * 4)) := by
  have hne : off.toNat / 4 ≠ 3 := by omega
  obtain ⟨u, hcycle, hu, hc, hends⟩ := cycle_of_write_in_lastCycle hb hw hleft lat v hne
  obtain ⟨hf, -, hflight⟩ := hostPart_write_of_busy hb hne v
  obtain ⟨u', hcycle', hu'⟩ := cycle_of_lastCycle hw hleft lat (host := none) hw
  have hsame : u.f = u'.f :=
    coreStep_f_congr (s' := hostPart m.s none) hf (hflight.trans hw) hw hu hu'
  refine ⟨_, _, hcycle, hcycle', hc.busy, hc.done, hsame, fun code hcode => (hends code hcode).1,
    fun herr => ?_⟩
  have hdiscard := busWrite_of_busy_field (s := { m.s with rdata := none }) hb hoff v
  rw [hostPart, State.transact, hdiscard] at hu
  exact coreStep_keeps_recorded hu herr

end LastCycle

/-- Settles O31: a host write of STATUS, of CMD, and of a field register. -/
theorem hostComesBeforeCompletionInACycle : Obligations.HostComesBeforeCompletionInACycle :=
  fun lat _ _ _ v hb hw hleft =>
    ⟨statusWrite_in_lastCycle hb hw hleft lat v, cmdWrite_in_lastCycle hb hw hleft lat v,
      fun hlow hhigh => fieldWrite_in_lastCycle hb hw hleft lat v ⟨hlow, hhigh⟩⟩

end Sys2Proof.Machine
end

section
/-! PROOFS. The reset family (70_reset_and_hazards.md): what a reset leaves, how many cycles a command
is in flight, and what that number depends on. -/

namespace Sys2Proof.Machine

variable {s s' t : State} {w : Word} {lat : Word → Nat}

/-! ### Reset (R350 to R353) -/

/-- The turn of the reset port. -/
theorem step_of_reset (h : s.events.head? = some .reset) : step s = .next s.advance.resetBlock := by
  obtain ⟨es, hs⟩ := List.head?_eq_some_iff.1 h
  simp [step, hs]

/-- Settles O12: the reset port and the write of CTRL both leave the reset block. -/
theorem resetRestoresEveryElement : Obligations.ResetRestoresEveryElement := by
  rintro s (hport | ⟨off, v, hwrite, hctrl, hv⟩)
  · exact step_of_reset hport
  · rw [step_of_write hwrite, busWrite_of_ctrl _ v hctrl, State.writeCtrl, if_pos hv]
    rfl

/-- Settles O13: the reset state is the reset block of itself. -/
theorem resetStateMeetsTheInvariant : Obligations.ResetStateMeetsTheInvariant :=
  inv_resetBlock State.reset

/-- R351: after reset every register reads 0 but the three constants. -/
theorem controlRead_reset (off : Offset) :
    State.reset.controlRead (align off) =
      if off.toNat / 4 = 0 then idWord
      else if off.toNat / 4 = 1 then versionWord
      else if off.toNat / 4 = 2 then paramWord else 0 := by
  have hctrl : State.reset.ctrlWord = 0 := rfl
  have hstatus : State.reset.statusWord = 0 := rfl
  have herrCode : State.reset.errCodeWord = 0 := rfl
  have hlastCmd : State.reset.lastCmd = 0 := rfl
  have herrInfo : State.reset.errInfo = 0 := rfl
  rw [controlRead_align, hctrl, hstatus, herrCode, hlastCmd, herrInfo]
  simp only [ite_self]

theorem State.reg_reset (r : RegIdx) : State.reset.reg r = 0 := State.reg_resetBlock State.reset r

/-- R351: the word a read answers with after reset, at every offset. -/
theorem busRead_reset (off : Offset) :
    State.reset.busRead off = State.reset.answer (
      if off.toNat / 4 = 0 then idWord
      else if off.toNat / 4 = 1 then versionWord
      else if off.toNat / 4 = 2 then paramWord else 0) := by
  by_cases hfield : 0x40 ≤ off.toNat / 4 ∧ off.toNat / 4 < 0x140
  · obtain ⟨i, j, hslot⟩ := exists_slot hfield
    have hidle : ¬ State.reset.busy = true := Bool.false_ne_true
    have hword : getWord (State.reset.reg i) j = 0 := by simp [State.reg_reset, getWord]
    rw [busRead_of_field _ hslot, if_neg hidle, hword, if_neg (by omega), if_neg (by omega),
      if_neg (by omega)]
  · rw [busRead_of_control _ (by omega), controlRead_reset]

/-- The first step after reset, where the host reads. -/
theorem step_reset_read (off : Offset) :
    step { State.reset with events := [.host (.read off)] } = .next (State.reset.busRead off) := rfl

/-- Settles O11: the elements by their definition, the window by `busRead_reset`. -/
theorem resetValuesOfEveryElement : Obligations.ResetValuesOfEveryElement := by
  refine ⟨⟨State.reg_reset, rfl, rfl, rfl, rfl, rfl, rfl, rfl, rfl, rfl, rfl, rfl, rfl⟩,
    fun off => ⟨State.reset.busRead off, step_reset_read off, ?_⟩⟩
  rw [busRead_reset]
  rfl

/-! ### How long a command is in flight (R371, R373) -/

theorem runCycles_cons {c : CycleInput} {m n : Clocked} (h : cycle lat c m = .next n)
    (cs : List CycleInput) : runCycles lat (c :: cs) m = runCycles lat cs n := by
  simp [runCycles, h]

/-- The cycle's input resets the block neither by its port nor by a write of CTRL with bit 31 set. -/
def CycleInput.NoReset (c : CycleInput) : Prop :=
  c.rstN = true ∧
    ∀ off v, c.host = some (.write off v) → ¬ (off.toNat / 4 = 3 ∧ v.getLsbD 31 = true)

/-- The block is busy with the command word `w`. -/
def BusyWith (w : Word) (s : State) : Prop := s.busy = true ∧ s.inFlight = some w

/-- R371: a write of CMD while BUSY = 0 and nothing is in flight starts the command's `lat w` cycles. -/
theorem cycle_accepts {m : Clocked} (hidle : m.s.busy = false) (hnone : m.s.inFlight = none)
    {off : Offset} (hcmd : off.toNat / 4 = 5) :
    ∃ n, cycle lat ⟨true, some (.write off w)⟩ m = .next n ∧ BusyWith w n.s ∧ n.left = lat w := by
  have haccept : hostPart m.s (some (.write off w)) =
      ({ m.s with rdata := none } : State).accept w := by
    rw [hostPart, State.transact, busWrite_of_cmd _ w hcmd, State.writeCmd, hidle]
    rfl
  refine ⟨_, cycle_of_accept hnone (by rw [haccept]; rfl), ?_, rfl⟩
  rw [haccept]
  exact ⟨rfl, rfl⟩

section InFlight

variable {m : Clocked} {c : CycleInput} (hbusy : BusyWith w m.s) (hc : c.NoReset)

include hbusy hc

/-- Short of a reset the host leaves the command in flight, so the cycle goes on to the core's part. -/
theorem cycle_of_busyWith :
    BusyWith w (hostPart m.s c.host) ∧
      cycle lat c m = corePart (hostPart m.s c.host) m.left := by
  obtain ⟨hb, hw⟩ := hbusy
  obtain ⟨rstN, host⟩ := c
  obtain ⟨rfl, hquiet⟩ := hc
  rcases hostPart_of_busy (host := host) hb with ⟨hb', hw'⟩ | ⟨off, v, rfl, hctrl, hv, -⟩
  · exact ⟨⟨hb', hw'.trans hw⟩, cycle_of_inFlight hw (hw'.trans hw)⟩
  · exact absurd ⟨hctrl, hv⟩ (hquiet off v rfl)

/-- A cycle that is not the last counts down. -/
theorem cycle_waits (hleft : 1 < m.left) :
    ∃ n, cycle lat c m = .next n ∧ BusyWith w n.s ∧ n.left = m.left - 1 := by
  obtain ⟨hbusy', hcycle⟩ := cycle_of_busyWith (lat := lat) hbusy hc
  exact ⟨_, hcycle.trans (corePart_wait (by omega)), hbusy', rfl⟩

/-- The last cycle completes the command. -/
theorem cycle_completes (hleft : m.left ≤ 1) :
    ∃ n, cycle lat c m = .next n ∧ n.s.busy = false ∧ n.s.inFlight = none ∧ n.s.done = true := by
  obtain ⟨⟨-, hw⟩, hcycle⟩ := cycle_of_busyWith (lat := lat) hbusy hc
  obtain ⟨u, hu, hidle, hdone, hnone⟩ := coreStep_completes hw
  exact ⟨_, hcycle.trans (corePart_done hleft hu), hidle, hnone, hdone⟩

end InFlight

/-- Fewer cycles than are left find the command in flight. -/
theorem runCycles_busyWith {cs : List CycleInput} {m : Clocked} (hbusy : BusyWith w m.s)
    (hcs : ∀ c ∈ cs, c.NoReset) (hlen : cs.length < m.left) :
    ∃ u, runCycles lat cs m = .next u ∧ BusyWith w u.s := by
  induction cs generalizing m with
  | nil => exact ⟨m, rfl, hbusy⟩
  | cons c cs ih =>
    obtain ⟨hc, hcs⟩ := List.forall_mem_cons.1 hcs
    rw [List.length_cons] at hlen
    obtain ⟨n, hn, hbusy', hleft⟩ := cycle_waits (lat := lat) hbusy hc (by omega)
    rw [runCycles_cons hn]
    exact ih hbusy' hcs (by omega)

/-- As many cycles as are left end with the one in which the command completes. -/
theorem runCycles_completes {cs : List CycleInput} {m : Clocked} (hbusy : BusyWith w m.s)
    (hcs : ∀ c ∈ cs, c.NoReset) (hpos : 1 ≤ m.left) (hlen : cs.length = m.left) :
    ∃ u, runCycles lat cs m = .next u ∧ u.s.busy = false ∧ u.s.inFlight = none ∧
      u.s.done = true := by
  induction cs generalizing m with
  | nil => simp [← hlen] at hpos
  | cons c cs ih =>
    obtain ⟨hc, hcs⟩ := List.forall_mem_cons.1 hcs
    rw [List.length_cons] at hlen
    by_cases hlast : m.left ≤ 1
    · obtain ⟨n, hn, hdone⟩ := cycle_completes (lat := lat) hbusy hc hlast
      obtain rfl : cs = [] := List.length_eq_zero_iff.1 (by omega)
      exact ⟨n, runCycles_cons hn [], hdone⟩
    · obtain ⟨n, hn, hbusy', hleft⟩ := cycle_waits (lat := lat) hbusy hc (by omega)
      rw [runCycles_cons hn]
      exact ih hbusy' hcs (by omega) (by omega)

/-- Settles O32: the acceptance sets the count to the latency, and every further cycle takes one off. -/
theorem busyLastsExactlyTheLatency : Obligations.BusyLastsExactlyTheLatency := by
  intro lat m w off cs hlat hidle hnone hcmd hcs
  obtain ⟨n, hn, hbusy, hleft⟩ := cycle_accepts (lat := lat) (w := w) hidle hnone hcmd
  rw [← hleft] at hlat ⊢
  exact ⟨n, hn, runCycles_busyWith hbusy hcs, runCycles_completes hbusy hcs hlat⟩

/-! ### What the time depends on (R372) -/

/-- Two blocks agree on BUSY and the word in flight, whatever else they hold. -/
structure SameCommand (s s' : State) : Prop where
  busy : s'.busy = s.busy
  inFlight : s'.inFlight = s.inFlight

theorem SameCommand.writeCtrl (h : SameCommand s s') (v : Word) :
    SameCommand (s.writeCtrl v) (s'.writeCtrl v) := by
  unfold State.writeCtrl
  split_ifs
  · exact ⟨rfl, rfl⟩
  · exact ⟨h.busy, h.inFlight⟩

theorem SameCommand.writeStatus (h : SameCommand s s') (v : Word) :
    SameCommand (s.writeStatus v) (s'.writeStatus v) :=
  ⟨by simpa using h.busy, by simpa using h.inFlight⟩

theorem SameCommand.recordError (h : SameCommand s s') (e : ErrorCode) (src : Bool) (info : Word) :
    SameCommand (s.recordError e src info) (s'.recordError e src info) :=
  ⟨by simpa using h.busy, by simpa using h.inFlight⟩

/-- Whether a command is accepted depends on BUSY. -/
theorem SameCommand.writeCmd (h : SameCommand s s') (v : Word) :
    SameCommand (s.writeCmd v) (s'.writeCmd v) := by
  unfold State.writeCmd
  rw [h.busy]
  split_ifs
  · exact h.recordError _ _ _
  · exact ⟨rfl, rfl⟩

theorem SameCommand.writeField (h : SameCommand s s') (o : Offset) (i : RegIdx) (j : Nat)
    (v : Word) : SameCommand (s.writeField o i j v) (s'.writeField o i j v) := by
  unfold State.writeField
  rw [h.busy]
  split_ifs
  · exact h.recordError _ _ _
  · exact ⟨h.busy, h.inFlight⟩

theorem SameCommand.busWrite (h : SameCommand s s') (off : Offset) (v : Word) :
    SameCommand (s.busWrite off v) (s'.busWrite off v) := by
  rw [busWrite_eq, busWrite_eq]
  split_ifs
  · exact h.writeCtrl v
  · exact h.writeStatus v
  · exact h.writeCmd v
  · split
    · exact h.writeField _ _ _ v
    · exact h

/-- A read leaves BUSY and the word in flight. -/
theorem HostEffect.sameCommand {off : Offset} (he : HostEffect s (.read off) t) :
    SameCommand s t := by
  cases he with
  | answered => exact ⟨rfl, rfl⟩
  | answeredFree => exact ⟨rfl, rfl⟩

theorem SameCommand.busRead (h : SameCommand s s') (off : Offset) :
    SameCommand (s.busRead off) (s'.busRead off) := by
  obtain ⟨hb, hw⟩ := (busRead_effect s off).sameCommand
  obtain ⟨hb', hw'⟩ := (busRead_effect s' off).sameCommand
  exact ⟨by rw [hb, hb', h.busy], by rw [hw, hw', h.inFlight]⟩

/-- The host's part of a cycle keeps the agreement. -/
theorem SameCommand.hostPart (h : SameCommand s s') (host : Option Transaction) :
    SameCommand (hostPart s host) (hostPart s' host) := by
  have h' : SameCommand { s with rdata := none } { s' with rdata := none } := ⟨h.busy, h.inFlight⟩
  rcases host with _ | ⟨off, v⟩ | ⟨off⟩
  · exact h'
  · exact h'.busWrite off v
  · exact h'.busRead off

/-- Two clocked blocks agree on BUSY, the word in flight and the cycles left. -/
structure SameTiming (m m' : Clocked) : Prop where
  command : SameCommand m.s m'.s
  left : m'.left = m.left

/-- Both answer a next clocked block, and these agree on the timing. -/
def BothKeepTiming (o o' : Host.Outcome Clocked Fault Refusal) : Prop :=
  ∃ n n', o = .next n ∧ o' = .next n' ∧ SameTiming n n'

/-- The core's part: completion leaves BUSY clear and nothing in flight, whatever the command did. -/
theorem corePart_keepsTiming (h : SameCommand s s') (hw : s.inFlight = some w) (left : Nat) :
    BothKeepTiming (corePart s left) (corePart s' left) := by
  by_cases hlast : left ≤ 1
  · obtain ⟨u, hu, hb, -, hf⟩ := coreStep_completes hw
    obtain ⟨u', hu', hb', -, hf'⟩ := coreStep_completes (h.inFlight.trans hw)
    exact ⟨_, _, corePart_done hlast hu, corePart_done hlast hu',
      ⟨hb'.trans hb.symm, hf'.trans hf.symm⟩, rfl⟩
  · exact ⟨_, _, corePart_wait hlast, corePart_wait hlast, h, rfl⟩

/-- A word is in flight before and after the host's part, the same one or not. -/
theorem cycle_of_inFlight_of_inFlight {m : Clocked} {w₀ : Word} {host : Option Transaction}
    (hi : m.s.inFlight = some w₀) (hh : (hostPart m.s host).inFlight = some w) :
    cycle lat ⟨true, host⟩ m = corePart (hostPart m.s host) m.left := by
  simp [cycle, hi, hh]

/-- One cycle: the four cases of `cycle` are told apart by what the two blocks agree on. -/
theorem cycle_keepsTiming {m m' : Clocked} (h : SameTiming m m') (c : CycleInput) :
    BothKeepTiming (cycle lat c m) (cycle lat c m') := by
  obtain ⟨hcommand, hleft⟩ := h
  obtain ⟨_ | _, host⟩ := c
  case false => exact ⟨_, _, cycle_of_reset, cycle_of_reset, ⟨rfl, rfl⟩, rfl⟩
  case true =>
    have hpart := hcommand.hostPart host
    cases hh : (hostPart m.s host).inFlight with
    | none =>
      exact ⟨_, _, cycle_of_none hh, cycle_of_none (hpart.inFlight.trans hh), hpart, rfl⟩
    | some w =>
      have hh' := hpart.inFlight.trans hh
      cases hi : m.s.inFlight with
      | none =>
        have hi' := hcommand.inFlight.trans hi
        exact ⟨_, _, cycle_of_accept hi hh, cycle_of_accept hi' hh', hpart, rfl⟩
      | some w₀ =>
        have hi' := hcommand.inFlight.trans hi
        rw [cycle_of_inFlight_of_inFlight hi hh, cycle_of_inFlight_of_inFlight hi' hh', hleft]
        exact corePart_keepsTiming hpart hh m.left

/-- Cycle after cycle. -/
theorem runCycles_keepsTiming {m m' : Clocked} (h : SameTiming m m') (cs : List CycleInput) :
    BothKeepTiming (runCycles lat cs m) (runCycles lat cs m') := by
  induction cs generalizing m m' with
  | nil => exact ⟨m, m', rfl, rfl, h⟩
  | cons c cs ih =>
    obtain ⟨n, n', hn, hn', hnext⟩ := cycle_keepsTiming (lat := lat) h c
    rw [runCycles_cons hn, runCycles_cons hn']
    exact ih hnext

/-- Settles O33: agreement on BUSY, the word in flight and the cycles left is kept by every cycle. -/
theorem latencyIsIndependentOfData : Obligations.LatencyIsIndependentOfData := by
  intro lat cs m m' n hbusy hflight hleft hrun
  obtain ⟨u, n', hu, hn', ⟨hb, hw⟩, hl⟩ :=
    runCycles_keepsTiming (lat := lat) (m := m) (m' := m') ⟨⟨hbusy, hflight⟩, hleft⟩ cs
  obtain rfl : u = n := by simpa [hu] using hrun
  exact ⟨n', hn', hb, hw, hl⟩

end Sys2Proof.Machine
end

section
/-! PROOFS. The other family: the words of the spec's examples, and the commands whose operands their
kinds do not admit, which no word decodes to. -/

namespace Sys2Proof.Machine

/-! ### Words of the examples (R121, R125) -/

/-- A word is decoded by recognising it as the encoding of a well-formed command. -/
theorem decode_of_encode_eq {i : Instr} {w : Word} (hwf : WellFormed i) (hw : encode i = w) :
    decode w = .ok i :=
  hw ▸ decodeOfEncodeIsTheCommand i hwf

/-- Settles O6: each word is the encoding of its command. -/
theorem exampleWordsDecode : Obligations.ExampleWordsDecode :=
  ⟨decode_of_encode_eq (i := .nop) rfl (by decide),
    decode_of_encode_eq (i := .fadd 3 1 2) rfl (by decide),
    decode_of_encode_eq (i := .fconst 3 3) rfl (by decide),
    decode_of_encode_eq (i := .feq 1 2) rfl (by decide),
    decode_of_encode_eq (i := .redp 3 4) rfl (by decide),
    decode_of_encode_eq (i := .fpow2 3 1 3) rfl (by decide),
    decode_of_encode_eq (i := .decomp 4 0) rfl (by decide),
    decode_of_encode_eq (i := .padd 8 0 4) rfl (by decide),
    decode_of_encode_eq (i := .peq 0 4) rfl (by decide)⟩

/-! ### Inadmissible operands (R129 to R131, log entry 10) -/

/-- A check that is the command's well-formedness stops a command that is not well-formed. -/
theorem guardOperands_of_not_wellFormed {i : Instr} {ok : Bool} (hok : ok = wellFormed i)
    (hwf : ¬ WellFormed i) (s : State) (run : Host.Outcome State Fault Refusal) :
    guardOperands ok s run = failWith .illegalOperand s := by
  rw [hok, eq_false_of_ne_true hwf]; rfl

/-- Case by case: the check each meaning makes is its command's well-formedness; FCONST makes it by the
length of the table, and a command with none of these operand kinds is well-formed. -/
theorem exec_of_not_wellFormed {i : Instr} (hwf : ¬ WellFormed i) (s : State) :
    exec i s = failWith .illegalOperand s := by
  cases i with
  | fconst d c =>
    have hc : 9 < c.toNat := not_le.1 fun hle => hwf (decide_eq_true hle)
    exact exec_fconst_of_none ((constTable_eq_none _).2 hc) d s
  | redp | redl | pow22523 => exact guardOperands_of_not_wellFormed (isPair_eq _) hwf s _
  | decomp | pcomp => exact guardOperands_of_not_wellFormed (isPoint_eq _) hwf s _
  | pext d a =>
    have hok : (isPoint d && isPair a) = wellFormed (.pext d a) := by
      simp only [isPoint_eq, isPair_eq, wellFormed, Bool.decide_and]
    exact guardOperands_of_not_wellFormed hok hwf s _
  | paff d a | pdbl d a | pneg d a | peq d a =>
    have hok : (isPoint d && isPoint a) = decide (PointIdx d ∧ PointIdx a) := by
      simp only [isPoint_eq, Bool.decide_and]
    exact guardOperands_of_not_wellFormed hok hwf s _
  | padd d a b | psub d a b =>
    have hok : (isPoint d && isPoint a && isPoint b) =
        decide (PointIdx d ∧ PointIdx a ∧ PointIdx b) := by
      simp only [isPoint_eq, Bool.decide_and, Bool.and_assoc]
    exact guardOperands_of_not_wellFormed hok hwf s _
  | _ => exact absurd rfl hwf

/-- Settles O20: such a command fails, and the failure's frame is that of every command error. -/
theorem inadmissibleOperandsEndWithTheirError :
    Obligations.InadmissibleOperandsEndWithTheirError := by
  intro i s hwf
  exact ⟨_, exec_of_not_wellFormed hwf s, failsWith_fail s .illegalOperand⟩

end Sys2Proof.Machine
end
